-- ==== Sys2Proof/Word.lean ====
section
/-! DEFINITION. The word types of the block: bytes inside it, 16-bit lengths, 32-bit bus and command words
(spec/00_scope.md R7 to R9). -/

namespace Sys2Proof

/-- An unsigned byte 0..255; sums on bytes are modulo 256 (R8, R9). -/
abbrev Byte := BitVec 8

/-- The 16-bit length held by `ILEN`, `OLEN` and `RLEN` (R29, R31). -/
abbrev Half := BitVec 16

/-- A 32-bit word of the host bus; also a command word and an offset on the bus (R7, R80, R61). -/
abbrev Word := BitVec 32

/-- `zext_32` of a byte (R8). -/
def Byte.toWord (b : Byte) : Word := b.setWidth 32

/-- `zext_32` of a 16-bit length (R37, R38). -/
def Half.toWord (h : Half) : Word := h.setWidth 32

end Sys2Proof
end

