-- ==== Sys2Proof/Config.lean ====
section
/-! DEFINITION. What is fixed for the block: the sizes of spec/00_scope.md R7, and the parameters the spec leaves
free (BASE, and DrawOracle as free values with no body). MAX_BUF, the third parameter, stands in State (log 1). -/

namespace Sys2Proof

/-- `PERM_SIZE` (R7). -/
abbrev Config.permSize : Nat := 256

/-- `PROPKEY_LEN` (R7). -/
abbrev Config.propKeyLen : Nat := 8

/-- `HANDSHAKE_MIN`: a shorter packet clears the key (R7, R102). -/
abbrev Config.handshakeMin : Nat := 12

/-- `DECODE_MIN`: FR.DECODE rejects a shorter input (R7, R136). -/
abbrev Config.decodeMin : Nat := 4

/-- `KEY_BIT`: the bit of packet bytes 4..11 that carries the key (R7, R108). -/
abbrev Config.keyBit : Nat := 3

/-- The default of the parameter `MAX_BUF` (R7). -/
abbrev Config.maxBufDefault : Nat := 4096

/-- The least legal `MAX_BUF` (R7). -/
abbrev Config.maxBufLeast : Nat := 257

/-- The greatest legal `MAX_BUF` (R7). -/
abbrev Config.maxBufGreatest : Nat := 16384

/-- `BASE`, the block's base address on the host bus: a platform parameter with no stated value (R7, R33; log 9). -/
opaque Config.base : Word

/-- `DrawOracle` (R7, R13): the `n`-th byte drawn. FREE VALUE: nothing constrains it (log 2). -/
opaque Config.drawByte : Nat → Byte

/-- The word a faulting host read returns, "an unconstrained word, a draw" (R61), taken at draw number `n`.
FREE VALUE: nothing constrains it (log 2). -/
opaque Config.drawWord : Nat → Word

end Sys2Proof
end

