-- ==== Sys2Proof/Syntax.lean ====
section
/-! DEFINITION. The nine commands of spec/30_encoding.md R82, one constructor per row of spec/opcode_table.json. -/

namespace Sys2Proof

/-- A command of the block (R82). Its operands are the fields the command word carries (R84): `INC` as a boolean and
`IMM8` as a byte; every other operand comes from block state. -/
inductive Instr where
  /-- `KS.GENPROP`: generate and store a proposal (R100). -/
  | ksGenprop
  /-- `KS.ACCEPT`: accept the proposal (R101). -/
  | ksAccept
  /-- `KS.UPDATE`: derive the key from the input packet, or clear it (R110). -/
  | ksUpdate
  /-- `KS.RKEY inc`: the receive-direction keystream byte (R105). -/
  | ksRkey (inc : Bool)
  /-- `KS.SKEY inc`: the send-direction keystream byte (R107). -/
  | ksSkey (inc : Bool)
  /-- `FR.XOR imm8`: XOR the input with one byte (R131). -/
  | frXor (imm8 : Byte)
  /-- `FR.CSUM`: compute the checksum of the input frame (R133). -/
  | frCsum
  /-- `FR.VCSUM`: validate the checksum of the input frame (R135). -/
  | frVcsum
  /-- `FR.DECODE`: deframe the first frame of the input (R137). -/
  | frDecode
deriving DecidableEq, Repr

end Sys2Proof
end

