-- ==== Sys2Proof/Machine/State.lean ====
section
/-! DEFINITION. The state of the block as plain data: every piece spec/10_state.md R44 gathers, the parameter MAX_BUF,
and the model's own fields (the host's pending accesses, its latest response, the draw counter); and the state after
reset (R44, spec/70_reset_and_hazards.md R181). -/

namespace Sys2Proof.Machine

/-- The handshake lifecycle `STATE` (R22). The encoding's value 3 is never held, so it has no constructor. -/
inductive Lifecycle where
  | empty
  | proposed
  | accepted
deriving DecidableEq, Repr

/-- The codes `ERRCODE` may hold (R161); 8..255 are never recorded, so they have no constructor. -/
inductive ErrCode where
  /-- 0: no fault recorded. -/
  | none
  /-- 1: the command word matches no row of the opcode table. -/
  | illegalCmd
  /-- 2: FR.CSUM on a buffer shorter than its declared frame. -/
  | csumShort
  /-- 3: KS.ACCEPT with no proposal to accept. -/
  | acceptNoProposal
  /-- 4: KS.GENPROP after acceptance. -/
  | genpropAfterAccept
  /-- 5: a host access the register map does not allow. -/
  | illegalAccess
  /-- 6: a write of `ILEN` out of range. -/
  | ilenRange
  /-- 7: a command's input holds a byte the host never wrote. -/
  | uninitInput
deriving DecidableEq, Repr

/-- The permutation table: 256 entries of 8 bits (R25). -/
abbrev PermTable := Vector Byte 256

/-- A byte buffer as the list of its held bytes by index, in one canonical form: indices strictly rising. A byte that
holds no value is not listed (R30, R44; logs 7, 8). -/
abbrev Memory := List Host.Cell

/-- What an unlisted index reads as: no value (R30 "every byte of every buffer holds no value"; log 8). -/
abbrev Memory.unlisted : Option Byte := Option.none

/-- The canonical form: indices strictly rising. (No entry can equal what an unlisted index reads as: that is no
byte at all.) -/
abbrev Memory.wf (m : Memory) : Prop := m.Pairwise (fun a b => a.1 < b.1)

/-- An event from outside the block: one access of the host on the register bus at an offset from `BASE`, of a width
in bytes (R61), or the platform's reset input (R180). -/
inductive HostEvent where
  /-- A host read of `bytes` bytes at offset `off`. -/
  | read (bytes : Nat) (off : Word)
  /-- A host write of `bytes` bytes of `data` at offset `off`. -/
  | write (bytes : Nat) (off : Word) (data : Word)
  /-- The platform asserts the reset input. -/
  | resetInput
deriving DecidableEq, Repr

/-- Why a step stops: nothing does. Every fault of the spec is recorded status after which the block goes on taking
accesses (R160, R162, R166), so it is a next state; every command completes (R190). No one raises this type; that it
is empty is safe (log 11). -/
inductive Fault : Type
deriving DecidableEq, Repr

/-- Why the model gives an instruction no meaning. -/
inductive Refusal where
  /-- Raised by an arm of exec that has no meaning yet; safe. No arm of this model raises it. -/
  | notModelled (mnemonic : String)
deriving DecidableEq, Repr

/-- The state of one block instance. -/
structure State where
  /-- `STATE` (R22). -/
  lifecycle : Lifecycle
  /-- `PROPKEY[0..7]` (R23). -/
  propKey : Vector Byte 8
  /-- `DKEY` (R24). -/
  dkey : Byte
  /-- `PERM` with `PV` (R25): `none` is `PV = 0`, the source's "empty", where the entries hold no value; `some` is
  `PV = 1` (log 6). -/
  perm : Option PermTable
  /-- `SIDX` (R27). -/
  sidx : Byte
  /-- `RIDX` (R27). -/
  ridx : Byte
  /-- `FAULT` (R28). -/
  fault : Bool
  /-- `ERRCODE` (R28, R161). -/
  errcode : ErrCode
  /-- `FINFO` (R28, R41). -/
  finfo : Word
  /-- `ILEN` (R29). -/
  ilen : Half
  /-- `OLEN` (R31). -/
  olen : Half
  /-- `RLEN` (R31). -/
  rlen : Half
  /-- `RESULT` (R32). -/
  result : Word
  /-- `IBUF` with `IBV` (R30): byte `i` is listed when `IBV[i] = 1` (log 7). -/
  ibuf : Memory
  /-- `OBUF` (R30). -/
  obuf : Memory
  /-- `RBUF` (R30). -/
  rbuf : Memory
  /-- The parameter `MAX_BUF` of this instance (R7); no step writes it (log 1). -/
  maxBuf : Nat
  /-- MODEL'S OWN: the outside events still to come, oldest first (R75, R191; log 3). -/
  pending : List HostEvent
  /-- MODEL'S OWN: the word the host's latest read returned; `none` before any read (R63; log 4). -/
  response : Option Word
  /-- MODEL'S OWN: how many draws have been taken, the index of the next free value (R13; log 2). -/
  draws : Nat
deriving DecidableEq, Repr

/-- The state right after reset (R44, R181), of an instance with the default `MAX_BUF` and no event pending.
`PROPKEY` holds no value in the spec; the zeros are a DESIGN CHOICE (log 5). -/
def State.reset : State where
  lifecycle := .empty
  propKey := Vector.replicate 8 0
  dkey := 0
  perm := none
  sidx := 0
  ridx := 0
  fault := false
  errcode := .none
  finfo := 0
  ilen := 0
  olen := 0
  rlen := 0
  result := 0
  ibuf := []
  obuf := []
  rbuf := []
  maxBuf := Config.maxBufDefault
  pending := []
  response := none
  draws := 0

end Sys2Proof.Machine
end

