-- ==== Sys2Proof/Machine/Ops.lean ====
section
/-! DEFINITION. The named operations every rule is written with: bytes of a buffer, draws, recording a fault
(spec/60_exceptions.md R160), reset (spec/70_reset_and_hazards.md R181) and completing a command
(spec/10_state.md R32). -/

namespace Sys2Proof.Machine

/-- `MemRead(BUF, i, 1)` (R11): the byte held at index `i`, or no value. -/
def Memory.read : Memory → Nat → Option Byte
  | [], _ => Memory.unlisted
  | c :: rest, i => if c.1 = i then some c.2 else Memory.read rest i

/-- `MemWrite(BUF, i, 1, b)` (R11), keeping the canonical form. -/
def Memory.write : Memory → Nat → Byte → Memory
  | [], i, b => [(i, b)]
  | c :: rest, i, b =>
    if i < c.1 then (i, b) :: c :: rest
    else if i = c.1 then (i, b) :: rest
    else c :: Memory.write rest i b

/-- The cells of a byte sequence laid out from index `start`. -/
def Memory.cellsFrom : Nat → List Byte → Memory
  | _, [] => []
  | start, b :: bs => (start, b) :: Memory.cellsFrom (start + 1) bs

/-- `for i in 0 .. len(bs)-1: BUF[i] <- bs[i]`; the bytes from `len(bs)` on stay as they were (R32). -/
def Memory.writeSeq (m : Memory) (bs : List Byte) : Memory :=
  Memory.cellsFrom 0 bs ++ m.filter (fun c => decide (bs.length ≤ c.1))

/-- The `n` bytes from index `start`, or no value if one of them holds none. -/
def Memory.readFrom (m : Memory) : Nat → Nat → Option (List Byte)
  | _, 0 => some []
  | start, n + 1 =>
    match m.read start, m.readFrom (start + 1) n with
    | some b, some bs => some (b :: bs)
    | _, _ => none

/-- The slice `BUF[0:n]` (R10), or no value if one of its bytes holds none. -/
def Memory.readSeq (m : Memory) (n : Nat) : Option (List Byte) :=
  m.readFrom 0 n

/-- `IBV[i]`: the host has written input byte `i` since reset (R30; log 7). -/
def State.ibv (s : State) (i : Nat) : Bool :=
  (s.ibuf.read i).isSome

/-- `PV`: a key table is held (R25; log 6). -/
def State.pv (s : State) : Bool :=
  s.perm.isSome

/-- Entry `i` of a permutation table (R11, R25). -/
def PermTable.entry (t : PermTable) (i : Byte) : Byte :=
  t[i.toNat]'i.isLt

/-- `raise Fault(code, info)` (R160): only the first fault since reset is recorded, and nothing else is written. -/
def State.raise (s : State) (code : ErrCode) (info : Word) : State :=
  if s.fault then s else { s with fault := true, errcode := code, finfo := info }

/-- The `k`-th of the draws the step takes next (R13). -/
def State.draw (s : State) (k : Nat) : Byte :=
  Config.drawByte (s.draws + k)

/-- A completed command writes all of `RESULT`, `OLEN` and `RLEN` (R32, R31). -/
def State.complete (s : State) (result : Word) (olen rlen : Nat) : State :=
  { s with result := result, olen := BitVec.ofNat 16 olen, rlen := BitVec.ofNat 16 rlen }

/-- `Reset()` (R181): every piece of the block's state at its value in R44. The parameter, and the model's own record
of the host's side, are no block state and stay (log 13). -/
def State.resetBlock (s : State) : State :=
  { State.reset with maxBuf := s.maxBuf, pending := s.pending, response := s.response, draws := s.draws }

end Sys2Proof.Machine
end

