-- ==== Sys2Proof/Machine/Flags.lean ====
section
/-! DEFINITION. The fields of the result and status words (spec/10_state.md R32, R35, R38 to R42). The block has no
condition codes (R46). -/

namespace Sys2Proof.Machine

/-- The code of `STATE` in `KSTAT[1:0]` (R22). -/
def Lifecycle.code : Lifecycle → BitVec 2
  | .empty => 0
  | .proposed => 1
  | .accepted => 2

/-- The `ERRCODE` of a fault (R161). -/
def ErrCode.code : ErrCode → Byte
  | .none => 0
  | .illegalCmd => 1
  | .csumShort => 2
  | .acceptNoProposal => 3
  | .genpropAfterAccept => 4
  | .illegalAccess => 5
  | .ilenRange => 6
  | .uninitInput => 7

/-- A boolean as a one-bit word of 32 bits. -/
def bitWord (b : Bool) : Word :=
  if b then 1 else 0

/-- A `RESULT` word from its fields: `RBYTE | RFLAG << 8 | REMV << 9` (R32, R137). -/
def resultWord (rbyte : Byte) (rflag remv : Bool) : Word :=
  Byte.toWord rbyte ||| (bitWord rflag <<< 8) ||| (bitWord remv <<< 9)

/-- `RESULT.RBYTE` (R32). -/
def State.rbyte (s : State) : Byte :=
  s.result.extractLsb' 0 8

/-- `RESULT.RFLAG` (R32). -/
def State.rflag (s : State) : Bool :=
  s.result.getLsbD 8

/-- `RESULT.REMV` (R32). -/
def State.remv (s : State) : Bool :=
  s.result.getLsbD 9

/-- The `STATUS` word: `FAULT | ERRCODE << 8`, reserved bits 0 (R35). -/
def State.statusWord (s : State) : Word :=
  bitWord s.fault ||| (Byte.toWord s.errcode.code <<< 8)

/-- The `KSTAT` word: `STATE | PV << 2 | DKEY << 8 | SIDX << 16 | RIDX << 24`, reserved bits 0 (R40). -/
def State.kstatWord (s : State) : Word :=
  s.lifecycle.code.setWidth 32 ||| (bitWord s.pv <<< 2) ||| (Byte.toWord s.dkey <<< 8)
    ||| (Byte.toWord s.sidx <<< 16) ||| (Byte.toWord s.ridx <<< 24)

/-- The `PERMWIN[i]` word: entry `i` of the table, 0 while there is none (R42). -/
def State.permwinWord (s : State) (i : Byte) : Word :=
  match s.perm with
  | some t => Byte.toWord (t.entry i)
  | none => 0

end Sys2Proof.Machine
end

