-- ==== Sys2Proof/WellFormed.lean ====
section
/-! DEFINITION. When the fields of a command word are legal (spec/30_encoding.md R81, R83). Every term of `Instr` is
well formed by its operands' types (R84); the checks are on the fields of a word. -/

namespace Sys2Proof

/-- The fields of a command word (R81). -/
structure CommandFields where
  /-- `OP`, bits [7:0]. -/
  op : Byte
  /-- `INC`, bit [8]. -/
  inc : Bool
  /-- `RSV0`, bits [15:9]. -/
  rsv0 : BitVec 7
  /-- `IMM8`, bits [23:16]. -/
  imm8 : Byte
  /-- `RSV1`, bits [31:24]. -/
  rsv1 : Byte
deriving DecidableEq, Repr

/-- `OP` is an operation code of R82. -/
def CommandFields.opAssigned (f : CommandFields) : Bool :=
  f.op ∈ [0x01, 0x02, 0x03, 0x04, 0x05, 0x10, 0x11, 0x12, 0x13]

/-- `INC` is set only with `OP` 0x04 or 0x05 (R81). -/
def CommandFields.incUsed (f : CommandFields) : Bool :=
  !f.inc || f.op == 0x04 || f.op == 0x05

/-- `IMM8` is nonzero only with `OP` 0x10 (R81). -/
def CommandFields.imm8Used (f : CommandFields) : Bool :=
  f.imm8 == 0 || f.op == 0x10

/-- The fields make a legal command: none of R83's five ways to be illegal. -/
def CommandFields.wellFormed (f : CommandFields) : Bool :=
  f.opAssigned && f.rsv0 == 0 && f.rsv1 == 0 && f.incUsed && f.imm8Used

end Sys2Proof
end

