-- ==== Sys2Proof/Decode.lean ====
section
/-! DEFINITION. Decoding a command word by the match and mask table of spec/30_encoding.md R82, total on every word,
rejecting by name (R83); and the encoder (R90). -/

namespace Sys2Proof

/-- The fields of a command word `w` (R81). -/
def fieldsOf (w : Word) : CommandFields where
  op := w.extractLsb' 0 8
  inc := w.getLsbD 8
  rsv0 := w.extractLsb' 9 7
  imm8 := w.extractLsb' 16 8
  rsv1 := w.extractLsb' 24 8

/-- Why a word is no command (R83, each way its `93_implementation_defined.md` X1 lists). The block reports all of
them as `ILLEGAL_CMD`. -/
inductive DecodeReject where
  /-- `OP` is no operation code. -/
  | opUnassigned
  /-- `RSV0` is nonzero. -/
  | rsv0Set
  /-- `RSV1` is nonzero. -/
  | rsv1Set
  /-- `INC` is set with an `OP` that does not use it. -/
  | incUnused
  /-- `IMM8` is nonzero with an `OP` that does not use it. -/
  | imm8Unused
deriving DecidableEq, Repr

/-- The first of R83's reasons that holds of the fields; meaningful where no row matches. -/
def rejectReason (f : CommandFields) : DecodeReject :=
  if !f.opAssigned then .opUnassigned
  else if f.rsv0 != 0 then .rsv0Set
  else if f.rsv1 != 0 then .rsv1Set
  else if !f.incUsed then .incUnused
  else .imm8Unused

/-- A row of the table of R82: `w` selects it when `(w & mask) == pattern`; `make` builds the command from the
fields `INC` and `IMM8`. -/
structure OpcodeRow where
  pattern : Word
  mask : Word
  make : Bool → Byte → Instr

/-- A word selects a row (R82). -/
def OpcodeRow.selects (r : OpcodeRow) (w : Word) : Bool :=
  w &&& r.mask == r.pattern

/-- The table of R82, in its order. -/
def opcodeRows : List OpcodeRow :=
  [ ⟨0x00000001, 0xFFFFFFFF, fun _ _ => .ksGenprop⟩,
    ⟨0x00000002, 0xFFFFFFFF, fun _ _ => .ksAccept⟩,
    ⟨0x00000003, 0xFFFFFFFF, fun _ _ => .ksUpdate⟩,
    ⟨0x00000004, 0xFFFFFEFF, fun inc _ => .ksRkey inc⟩,
    ⟨0x00000005, 0xFFFFFEFF, fun inc _ => .ksSkey inc⟩,
    ⟨0x00000010, 0xFF00FFFF, fun _ imm8 => .frXor imm8⟩,
    ⟨0x00000011, 0xFFFFFFFF, fun _ _ => .frCsum⟩,
    ⟨0x00000012, 0xFFFFFFFF, fun _ _ => .frVcsum⟩,
    ⟨0x00000013, 0xFFFFFFFF, fun _ _ => .frDecode⟩ ]

/-- The command a word encodes, or why it encodes none (R82, R83, R89). -/
def decode (w : Word) : Except DecodeReject Instr :=
  match opcodeRows.find? (·.selects w) with
  | some r => .ok (r.make (fieldsOf w).inc (fieldsOf w).imm8)
  | none => .error (rejectReason (fieldsOf w))

/-- The fields of a command's word (R82). -/
def Instr.fields : Instr → CommandFields
  | .ksGenprop => ⟨0x01, false, 0, 0, 0⟩
  | .ksAccept => ⟨0x02, false, 0, 0, 0⟩
  | .ksUpdate => ⟨0x03, false, 0, 0, 0⟩
  | .ksRkey inc => ⟨0x04, inc, 0, 0, 0⟩
  | .ksSkey inc => ⟨0x05, inc, 0, 0, 0⟩
  | .frXor imm8 => ⟨0x10, false, 0, imm8, 0⟩
  | .frCsum => ⟨0x11, false, 0, 0, 0⟩
  | .frVcsum => ⟨0x12, false, 0, 0, 0⟩
  | .frDecode => ⟨0x13, false, 0, 0, 0⟩

/-- The assembled word of a command, `zext_32(OP) | (inc << 8) | (imm8 << 16)` (R90). -/
def encode (i : Instr) : Word :=
  i.fields.op.toWord ||| ((BitVec.ofBool i.fields.inc).setWidth 32 <<< 8) ||| (i.fields.imm8.toWord <<< 16)

/-- What the decoder reads from a command word given as the opcode table numbers its bits: one 32-bit word, bit 0 its
least significant bit (R8, R80). A number that needs more than the one word is no command. -/
def decodeTableWord (nbits w : Nat) : Option Instr :=
  if w % 2 ^ nbits < 2 ^ 32 then
    match decode (BitVec.ofNat 32 (w % 2 ^ nbits)) with
    | .ok i => some i
    | .error _ => none
  else none

end Sys2Proof
end

