-- ==== Sys2Proof/Machine/Operands.lean ====
section
/-! DEFINITION. The operand forms of spec/30_encoding.md R84: the fields `INC` and `IMM8` are arguments of a command,
and the byte-sequence argument is `IBUF[0:ILEN]`, checked to be written by R89. -/

namespace Sys2Proof.Machine

/-- `IBUF[0:ILEN]`, or no value if some byte of it was never written (R29, R84, R89). -/
def State.input (s : State) : Option (List Byte) :=
  s.ibuf.readSeq s.ilen.toNat

/-- Run a command on its input sequence. A byte never written raises `UNINIT_INPUT` with the command word before the
command's own rule runs (R89, R163); the command word of `i` is `encode i` (log 10). -/
def withInput (i : Instr) (s : State) (run : List Byte → State) : State :=
  match s.input with
  | some m => run m
  | none => s.raise .uninitInput (encode i)

end Sys2Proof.Machine
end

