-- ==== Sys2Proof/Machine/Framer.lean ====
section
/-! DEFINITION. The Framer Unit: the XOR transform, the checksum engine, the deframing pipeline, and the meanings of
the FR commands (spec/41_framer.md R130 to R137). -/

namespace Sys2Proof.Machine

/-- `XorBytes(m, x)` (R130). -/
def xorBytes (m : List Byte) (x : Byte) : List Byte :=
  m.map (· ^^^ x)

/-- The total length `L = m[1] + 2` a frame declares, without wrap (R85, R9); none where there is no `m[1]`. -/
def frameLength : List Byte → Option Nat
  | _ :: len :: _ => some (len.toNat + 2)
  | _ => none

/-- The sum of bytes modulo 256 (R9, R132). -/
def byteSum (m : List Byte) : Byte :=
  m.foldl (· + ·) 0

/-- `Checksum(m)` (R132): the sum of `m[0 .. L-2]`; none where its precondition `len(m) >= 2` and `len(m) >= L` fails
(the spec gives no value there: `93_implementation_defined.md` U1). -/
def checksum (m : List Byte) : Option Byte :=
  match frameLength m with
  | some L => if m.length < L then none else some (byteSum (m.take (L - 1)))
  | none => none

/-- `ValidateChecksum(m)` (R134): false on a buffer shorter than 2 bytes or than the declared frame; otherwise the
checksum agrees with `m[L-1]`. -/
def validateChecksum (m : List Byte) : Bool :=
  match frameLength m, checksum m with
  | some L, some c => m[L - 1]? == some c
  | _, _ => false

/-- A successful result of `Decode` (R136): the decoded frame, the key that worked, and the raw bytes after the frame,
absent where there are none. -/
structure DecodedFrame where
  frame : List Byte
  key : Byte
  remainder : Option (List Byte)
deriving DecidableEq, Repr

/-- One candidate key of `Decode` (R136 steps 3 to 5): the whole buffer XORed with `x` must validate; the frame is cut
from it and the remainder from the raw buffer. -/
def decodeWith (m : List Byte) (x : Byte) : Option DecodedFrame :=
  if validateChecksum (xorBytes m x) then
    match frameLength (xorBytes m x) with
    | some L => some ⟨(xorBytes m x).take L, x, if L < m.length then some (m.drop L) else none⟩
    | none => none
  else none

/-- `Decode(m)` (R136): nothing from fewer than 4 bytes; otherwise the key `m[2]`, then that byte with its low bit
flipped, and no other key (R144). -/
def decodeFrame (m : List Byte) : Option DecodedFrame :=
  if m.length < Config.decodeMin then none
  else
    match m[2]? with
    | some x =>
      match decodeWith m x with
      | some d => some d
      | none => decodeWith m (x ^^^ 1)
    | none => none

/-- FR.XOR on its input `m` (R131). -/
def State.finishXor (s : State) (m : List Byte) (x : Byte) : State :=
  { s with obuf := s.obuf.writeSeq (xorBytes m x) }.complete 0 m.length 0

/-- FR.CSUM on its input `m` (R133). -/
def State.finishCsum (s : State) (m : List Byte) : State :=
  match checksum m with
  | some c => s.complete (resultWord c false false) 0 0
  | none => s.raise .csumShort (encode .frCsum)

/-- FR.DECODE on its result (R137). -/
def State.finishDecode (s : State) : Option DecodedFrame → State
  | none => s.complete 0 0 0
  | some ⟨frame, key, none⟩ =>
    { s with obuf := s.obuf.writeSeq frame }.complete (resultWord key true false) frame.length 0
  | some ⟨frame, key, some rem⟩ =>
    { s with obuf := s.obuf.writeSeq frame, rbuf := s.rbuf.writeSeq rem }.complete
      (resultWord key true true) frame.length rem.length

/-- `FR.XOR imm8` (R131). -/
def execFrXor (imm8 : Byte) (s : State) : Host.Outcome State Fault Refusal :=
  .next (withInput (.frXor imm8) s fun m => s.finishXor m imm8)

/-- `FR.CSUM` (R133). -/
def execFrCsum (s : State) : Host.Outcome State Fault Refusal :=
  .next (withInput .frCsum s fun m => s.finishCsum m)

/-- `FR.VCSUM` (R135). -/
def execFrVcsum (s : State) : Host.Outcome State Fault Refusal :=
  .next (withInput .frVcsum s fun m => s.complete (resultWord 0 (validateChecksum m) false) 0 0)

/-- `FR.DECODE` (R137). -/
def execFrDecode (s : State) : Host.Outcome State Fault Refusal :=
  .next (withInput .frDecode s fun m => s.finishDecode (decodeFrame m))

end Sys2Proof.Machine
end

