-- ==== Sys2Proof/Machine/Keystream.lean ====
section
/-! DEFINITION. The Keystream Unit: key derivation, the key schedule, the keystream lookup, and the meanings of the
KS commands (spec/40_keystream.md R100 to R110). -/

namespace Sys2Proof.Machine

/-- `DeriveKeyByte(p)` (R108), for a packet of 12 bytes or more: bit `k` is bit 3 of `p[4+k]`. (The default of `getD`
is never taken on such a packet.) -/
def deriveKeyByte (p : List Byte) : Byte :=
  (List.range 8).foldl
    (fun d k => d ||| ((BitVec.ofBool ((p.getD (4 + k) 0).getLsbD Config.keyBit)).setWidth 8 <<< k)) 0

/-- The bytes 0..255 in increasing order: the rounds of the key schedule (R109). -/
def allBytes : List Byte :=
  (List.range Config.permSize).map (BitVec.ofNat 8)

/-- The identity table `S[i] = i` (R109). -/
def identityTable : PermTable :=
  Vector.ofFn fun i => BitVec.ofNat 8 i.val

/-- One round of the key schedule (R109): advance `j` by the current `S[i]` and the key byte, then swap `S[i]` and
`S[j]`. -/
def scheduleRound (d : Byte) (acc : Byte × PermTable) (i : Byte) : Byte × PermTable :=
  let j := acc.1 + acc.2.entry i + d
  (j, acc.2.swap i.toNat j.toNat i.isLt j.isLt)

/-- `KeySchedule(d)` (R109). -/
def keySchedule (d : Byte) : PermTable :=
  (allBytes.foldl (scheduleRound d) (0, identityTable)).2

/-- `ClearKey()` (R103). -/
def State.clearKey (s : State) : State :=
  { s with perm := none, dkey := 0, sidx := 0, ridx := 0 }

/-- The derive path of `UpdateKey`, for the key byte `d` (R102). -/
def State.installKey (s : State) (d : Byte) : State :=
  { s with perm := some (keySchedule d), dkey := d, sidx := 0, ridx := 0 }

/-- `UpdateKey(p)` (R102): clear on a packet shorter than 12 bytes, derive otherwise. -/
def State.updateKey (s : State) (p : List Byte) : State :=
  if p.length < Config.handshakeMin then s.clearKey else s.installKey (deriveKeyByte p)

/-- `KeyLookup(idx)` (R104): the entry at `idx`, or the sentinel 0 while no table is held. -/
def State.keyLookup (s : State) (idx : Byte) : Byte :=
  match s.perm with
  | some t => t.entry idx
  | none => 0

/-- The index after a keystream command (R105, R107): advanced by 1 modulo 256 when a table is held and `inc` is set. -/
def State.advanced (s : State) (idx : Byte) (inc : Bool) : Byte :=
  if s.pv && inc then idx + 1 else idx

/-- The 8 bytes KS.GENPROP draws (R100). -/
def State.proposal (s : State) : Vector Byte 8 :=
  #v[s.draw 0, s.draw 1, s.draw 2, s.draw 3, s.draw 4, s.draw 5, s.draw 6, s.draw 7]

/-- `KS.GENPROP` (R100). -/
def execKsGenprop (s : State) : Host.Outcome State Fault Refusal :=
  match s.lifecycle with
  | .accepted => .next (s.raise .genpropAfterAccept (encode .ksGenprop))
  | .empty | .proposed =>
    .next ({ s with
      propKey := s.proposal
      obuf := s.obuf.writeSeq s.proposal.toList
      lifecycle := .proposed
      draws := s.draws + 8 }.complete 0 8 0)

/-- `KS.ACCEPT` (R101): the packet is four zero bytes and `PROPKEY`. -/
def execKsAccept (s : State) : Host.Outcome State Fault Refusal :=
  match s.lifecycle with
  | .proposed =>
    .next ({ s.updateKey (List.replicate 4 0 ++ s.propKey.toList) with lifecycle := .accepted }.complete 0 0 0)
  | .empty | .accepted => .next (s.raise .acceptNoProposal (encode .ksAccept))

/-- `KS.UPDATE` (R110). -/
def execKsUpdate (s : State) : Host.Outcome State Fault Refusal :=
  .next (withInput .ksUpdate s fun packet => (s.updateKey packet).complete 0 0 0)

/-- `KS.RKEY inc` (R105): the byte at `RIDX`, then the increment. -/
def execKsRkey (inc : Bool) (s : State) : Host.Outcome State Fault Refusal :=
  .next ({ s with ridx := s.advanced s.ridx inc }.complete (resultWord (s.keyLookup s.ridx) false false) 0 0)

/-- `KS.SKEY inc` (R107): the byte at `SIDX`, then the increment. -/
def execKsSkey (inc : Bool) (s : State) : Host.Outcome State Fault Refusal :=
  .next ({ s with sidx := s.advanced s.sidx inc }.complete (resultWord (s.keyLookup s.sidx) false false) 0 0)

end Sys2Proof.Machine
end

