-- ==== Sys2Proof/Machine/Dispatch.lean ====
section
/-! DEFINITION. Which meaning runs each command (spec/30_encoding.md R82, R89). -/

namespace Sys2Proof.Machine

/-- The rule named by the command's row of R82. -/
def exec (i : Instr) (s : State) : Host.Outcome State Fault Refusal :=
  match i with
  | .ksGenprop => Sys2Proof.Machine.execKsGenprop s
  | .ksAccept => Sys2Proof.Machine.execKsAccept s
  | .ksUpdate => Sys2Proof.Machine.execKsUpdate s
  | .ksRkey inc => Sys2Proof.Machine.execKsRkey inc s
  | .ksSkey inc => Sys2Proof.Machine.execKsSkey inc s
  | .frXor imm8 => Sys2Proof.Machine.execFrXor imm8 s
  | .frCsum => Sys2Proof.Machine.execFrCsum s
  | .frVcsum => Sys2Proof.Machine.execFrVcsum s
  | .frDecode => Sys2Proof.Machine.execFrDecode s

end Sys2Proof.Machine
end

