-- ==== Sys2Proof/Machine/Bus.lean ====
section
/-! DEFINITION. The register bus: the map of spec/10_state.md R33, host reads and writes (spec/20_memory.md R61 to
R63), issuing a command (spec/30_encoding.md R89), and the reset input (spec/70_reset_and_hazards.md R180). -/

namespace Sys2Proof.Machine

/-- The offset from `BASE` of a host address (R33, R68). -/
def busOffset (addr : Word) : Word :=
  addr - Config.base

/-- A host word write at an address of the host's own address space (R33). -/
def writeAt (addr data : Word) : HostEvent :=
  .write 4 (busOffset addr) data

/-- A host word read at an address of the host's own address space (R33). -/
def readAt (addr : Word) : HostEvent :=
  .read 4 (busOffset addr)

/-- A mapped location of the register window (R33). -/
inductive Location where
  | cmd
  | status
  | ctrl
  | ilen
  | olen
  | rlen
  | result
  | kstat
  | finfo
  | permwin (i : Byte)
  | ibuf (i : Nat)
  | obuf (i : Nat)
  | rbuf (i : Nat)
deriving DecidableEq, Repr

/-- The word index `i < n` of a word-aligned offset in a window that starts at `start`, if it lies there. -/
def windowIndex (start n off : Nat) : Option Nat :=
  if start ≤ off ∧ off < start + 4 * n then some ((off - start) / 4) else none

/-- The buffer windows of the map (R33, R43). -/
def bufferLocation (maxBuf off : Nat) : Option Location :=
  match windowIndex 0x10000 maxBuf off, windowIndex 0x20000 maxBuf off, windowIndex 0x30000 maxBuf off with
  | some i, _, _ => some (.ibuf i)
  | none, some i, _ => some (.obuf i)
  | none, none, some i => some (.rbuf i)
  | none, none, none => none

/-- The location at a word-aligned offset of the map (R33), none where it is unmapped. -/
def mappedLocation (maxBuf off : Nat) : Option Location :=
  match off with
  | 0x00000 => some .cmd
  | 0x00004 => some .status
  | 0x00008 => some .ctrl
  | 0x0000C => some .ilen
  | 0x00010 => some .olen
  | 0x00014 => some .rlen
  | 0x00018 => some .result
  | 0x0001C => some .kstat
  | 0x00020 => some .finfo
  | _ =>
    match windowIndex 0x00400 Config.permSize off with
    | some i => some (.permwin (BitVec.ofNat 8 i))
    | none => bufferLocation maxBuf off

/-- The location an access of `bytes` bytes at `off` reaches; none where the access is not a 32-bit word access on a
word-aligned, mapped offset (R33, R61). -/
def locate (maxBuf bytes : Nat) (off : Word) : Option Location :=
  if bytes = 4 ∧ off.toNat % 4 = 0 then mappedLocation maxBuf off.toNat else none

/-- The word a location holds; none where a read answers a draw (R63, R34 to R43). -/
def State.held (s : State) : Location → Option Word
  | .cmd | .ctrl => some 0
  | .status => some s.statusWord
  | .ilen => some (Half.toWord s.ilen)
  | .olen => some (Half.toWord s.olen)
  | .rlen => some (Half.toWord s.rlen)
  | .result => some s.result
  | .kstat => some s.kstatWord
  | .finfo => some s.finfo
  | .permwin i => some (s.permwinWord i)
  | .ibuf i => (s.ibuf.read i).map Byte.toWord
  | .obuf i => if i < s.olen.toNat then (s.obuf.read i).map Byte.toWord else none
  | .rbuf i => if i < s.rlen.toNat then (s.rbuf.read i).map Byte.toWord else none

/-- Answer a read with a fresh draw (R13). -/
def State.respondDraw (s : State) (w : Word) : State :=
  { s with response := some w, draws := s.draws + 1 }

/-- A host read (R61, R63): the word held, or a drawn byte; an access the map does not allow faults `ILLEGAL_ACCESS`
and answers an unconstrained word. -/
def hostRead (s : State) (bytes : Nat) (off : Word) : State :=
  match locate s.maxBuf bytes off with
  | some loc =>
    match s.held loc with
    | some w => { s with response := some w }
    | none => s.respondDraw (Byte.toWord (s.draw 0))
  | none => (s.raise .illegalAccess off).respondDraw (Config.drawWord s.draws)

/-- `IssueCommand(w)` (R89): dropped while `FAULT = 1`; `ILLEGAL_CMD` where no row matches; otherwise the row's rule,
which checks its input first. -/
def issueCommand (s : State) (w : Word) : Host.Outcome State Fault Refusal :=
  if s.fault then .next s
  else
    match decode w with
    | .ok i => exec i s
    | .error _ => .next (s.raise .illegalCmd w)

/-- A host write of `CTRL` (R36, R62): the reserved bits must be 0; bit 0 performs the soft reset (R182). -/
def writeCtrl (s : State) (w : Word) : State :=
  if w >>> 1 ≠ 0 then s.raise .illegalAccess 0x00008
  else if w.getLsbD 0 then s.resetBlock
  else s

/-- A host write of `ILEN` (R37, R62). -/
def writeIlen (s : State) (w : Word) : State :=
  if w.toNat ≥ 2 ^ 16 ∨ w.toNat > s.maxBuf then s.raise .ilenRange w
  else { s with ilen := w.setWidth 16 }

/-- A host write (R61, R62). A write to a read-only location, or one the map does not allow, faults
`ILLEGAL_ACCESS`. -/
def hostWrite (s : State) (bytes : Nat) (off w : Word) : Host.Outcome State Fault Refusal :=
  match locate s.maxBuf bytes off with
  | some .cmd => issueCommand s w
  | some .ctrl => .next (writeCtrl s w)
  | some .ilen => .next (writeIlen s w)
  | some (.ibuf i) => .next { s with ibuf := s.ibuf.write i (w.setWidth 8) }
  | some _ => .next (s.raise .illegalAccess off)
  | none => .next (s.raise .illegalAccess off)

/-- One event from outside (R180, R61). -/
def hostEvent (s : State) : HostEvent → Host.Outcome State Fault Refusal
  | .read bytes off => .next (hostRead s bytes off)
  | .write bytes off w => hostWrite s bytes off w
  | .resetInput => .next s.resetBlock

/-- Take the oldest pending event (R75, R69); with none pending the block waits, unchanged (R183; log 3). -/
def takeEvent (s : State) : Host.Outcome State Fault Refusal :=
  match s.pending with
  | [] => .next s
  | e :: rest => hostEvent { s with pending := rest } e

/-- A command issued next, ahead of what is pending: the host's write of `w` to `CMD` (R34). -/
def State.issueNext (s : State) (w : Word) : State :=
  { s with pending := .write 4 0x00000 w :: s.pending }

end Sys2Proof.Machine
end

