-- ==== Sys2Proof/Machine/Step.lean ====
section
/-! DEFINITION. One step of the machine: one event from outside, taken atomically (spec/20_memory.md R64, R69). -/

namespace Sys2Proof.Machine

/-- One step (R64): the block takes the oldest pending event. -/
def step (s : State) : Host.Outcome State Fault Refusal :=
  takeEvent s

/-- `s` with the command word `w` (`nbits` bits of it, the rest 0) as the very next host write to `CMD`: where the next
step takes its command from (R21, R34; log 3). -/
def State.withFetchWord (s : State) (nbits w : Nat) : State :=
  s.issueNext (BitVec.ofNat 32 (w % 2 ^ nbits))

end Sys2Proof.Machine
end

