-- ==== Sys2Proof/Machine/HostProgram.lean ====
section
/-! DEFINITION. The notation of host programs (spec/30_encoding.md R90, R91): mnemonics, pseudo-instructions and bus
forms, and the host events each stands for. -/

namespace Sys2Proof.Machine

/-- The value of a digit character in a base up to 16. -/
def digitValue (base : Nat) (c : Char) : Option Nat :=
  let n := c.toNat
  let v :=
    if 48 ≤ n ∧ n ≤ 57 then n - 48
    else if 65 ≤ n ∧ n ≤ 70 then n - 55
    else if 97 ≤ n ∧ n ≤ 102 then n - 87
    else base
  if v < base then some v else none

/-- The value of a run of digits, after `acc`. -/
def digitsValue (base : Nat) : Nat → List Char → Option Nat
  | acc, [] => some acc
  | acc, c :: cs =>
    match digitValue base c with
    | some v => digitsValue base (acc * base + v) cs
    | none => none

/-- A number in C style, `0x5C` or `92` (R90); as in C, a leading 0 makes it octal (log 15). -/
def numberValue : List Char → Option Nat
  | [] => none
  | ['0', 'x'] => none
  | '0' :: 'x' :: cs => digitsValue 16 0 cs
  | '0' :: cs => digitsValue 8 0 cs
  | cs => digitsValue 10 0 cs

/-- The command a line of mnemonic syntax names (R90), or its pseudo-instruction (R91), given as the words of the
line. -/
def assemble : List String → Option Instr
  | ["KS.GENPROP"] => some .ksGenprop
  | ["KS.ACCEPT"] => some .ksAccept
  | ["KS.UPDATE"] => some .ksUpdate
  | ["KS.PEEKR"] => some (.ksRkey false)
  | ["KS.NEXTR"] => some (.ksRkey true)
  | ["KS.PEEKS"] => some (.ksSkey false)
  | ["KS.NEXTS"] => some (.ksSkey true)
  | ["FR.CSUM"] => some .frCsum
  | ["FR.VCSUM"] => some .frVcsum
  | ["FR.DECODE"] => some .frDecode
  | ["KS.RKEY", inc] =>
    match numberValue inc.toList with
    | some 0 => some (.ksRkey false)
    | some 1 => some (.ksRkey true)
    | _ => none
  | ["KS.SKEY", inc] =>
    match numberValue inc.toList with
    | some 0 => some (.ksSkey false)
    | some 1 => some (.ksSkey true)
    | _ => none
  | ["FR.XOR", imm8] =>
    match numberValue imm8.toList with
    | some n => if n < 256 then some (.frXor (BitVec.ofNat 8 n)) else none
    | none => none
  | _ => none

/-- The offset a register name of R33 stands for (R90). -/
def registerOffset : String → Option Word
  | "CMD" => some 0x00000
  | "STATUS" => some 0x00004
  | "CTRL" => some 0x00008
  | "ILEN" => some 0x0000C
  | "OLEN" => some 0x00010
  | "RLEN" => some 0x00014
  | "RESULT" => some 0x00018
  | "KSTAT" => some 0x0001C
  | "FINFO" => some 0x00020
  | _ => none

/-- The offset of `IBUF[i]` (R90). -/
def ibufOffset (i : Nat) : Word :=
  BitVec.ofNat 32 (0x10000 + 4 * i)

/-- The offset the name of location `i` of an array of R33 stands for (R90). -/
def arrayOffset : String → Nat → Option Word
  | "PERMWIN", i => some (BitVec.ofNat 32 (0x00400 + 4 * i))
  | "IBUF", i => some (ibufOffset i)
  | "OBUF", i => some (BitVec.ofNat 32 (0x20000 + 4 * i))
  | "RBUF", i => some (BitVec.ofNat 32 (0x30000 + 4 * i))
  | _, _ => none

/-- The host writes of `bs` to the input buffer from index `i` on (R91). -/
def loadBytes : Nat → List Byte → List HostEvent
  | _, [] => []
  | i, b :: bs => .write 4 (ibufOffset i) (Byte.toWord b) :: loadBytes (i + 1) bs

/-- `LOAD [b0, ..., bn-1]` (R91): the bytes, then `ILEN`. -/
def loadInput (bs : List Byte) : List HostEvent :=
  loadBytes 0 bs ++ [.write 4 0x0000C (BitVec.ofNat 32 bs.length)]

/-- A command line of a host program: `W CMD, <assembled word>` (R91). -/
def commandEvent (i : Instr) : HostEvent :=
  .write 4 0x00000 (encode i)

/-- A line of a host program, its names and mnemonics read (R90, R91). -/
inductive HostLine where
  /-- `W <name or offset>, <word>`. -/
  | write (off : Word) (data : Word)
  /-- `R <name or offset>`. -/
  | read (off : Word)
  /-- `LOAD [b0, ..., bn-1]`. -/
  | load (bs : List Byte)
  /-- `CMD <mnemonic ...>`, or the bare mnemonic. -/
  | command (i : Instr)
deriving DecidableEq, Repr

/-- The host accesses a line stands for (R90, R91). -/
def HostLine.events : HostLine → List HostEvent
  | .write off data => [.write 4 off data]
  | .read off => [.read 4 off]
  | .load bs => loadInput bs
  | .command i => [commandEvent i]

/-- The accesses of a host program, in program order (R75). -/
def hostProgram (lines : List HostLine) : List HostEvent :=
  lines.flatMap HostLine.events

end Sys2Proof.Machine
end

