-- ==== Sys2Proof/Safety.lean ====
section
/-! DEFINITION. What counts as a good run (spec/70_reset_and_hazards.md R191), the invariants of the block, and the
terms the statements use. -/

namespace Sys2Proof

open Machine

/-! ### Runs -/

/-- `n` steps. -/
def runSteps : Nat → State → Host.Outcome State Fault Refusal
  | 0, s => .next s
  | n + 1, s =>
    match step s with
    | .next t => runSteps n t
    | .fault f => .fault f
    | .refused r => .refused r

/-- Every pending event has been taken without a stop, and the state is then `t` (R191). -/
def RunsTo (s t : State) : Prop :=
  runSteps s.pending.length s = .next t

/-- The run ends well: `FAULT = 0` in its final state (R191). -/
def EndsWell (s : State) : Prop :=
  ∃ t, RunsTo s t ∧ t.fault = false

/-- The same command issued `n` times (R113). -/
def repeatCommand (i : Instr) : Nat → State → Host.Outcome State Fault Refusal
  | 0, s => .next s
  | n + 1, s =>
    match repeatCommand i n s with
    | .next t => exec i t
    | .fault f => .fault f
    | .refused r => .refused r

/-- The event is a reset: the platform's reset input, or a word write of 1 to `CTRL` (R180, R182). -/
def IsReset (e : HostEvent) : Prop :=
  e = .resetInput ∨ e = .write 4 0x00008 1

/-! ### Terms of the statements -/

/-- Every byte of `IBUF[0:ILEN]` has been written (R89). -/
def InputHeld (s : State) : Prop :=
  ∀ i < s.ilen.toNat, ∃ b, s.ibuf.read i = some b

/-- The sum of the first `n` bytes modulo 256, as a number (R9, R132). -/
def sumMod256 (m : List Byte) (n : Nat) : Nat :=
  ((m.take n).map BitVec.toNat).sum % 256

/-- The buffer declares a frame of length `L = m[1] + 2` and holds it whole (R85). -/
def DeclaresFrame (m : List Byte) (L : Nat) : Prop :=
  ∃ n, m[1]? = some n ∧ L = n.toNat + 2 ∧ L ≤ m.length

/-- The buffer starts with a frame of length `L` whose last byte is the sum of the others (R85). -/
def ValidFrame (m : List Byte) (L : Nat) : Prop :=
  DeclaresFrame m L ∧ ∃ c, m[L - 1]? = some c ∧ c.toNat = sumMod256 m (L - 1)

/-- The raw buffer starts with a frame of length `L` obfuscated with the byte `x` (R86). -/
def ValidUnder (m : List Byte) (x : Byte) (L : Nat) : Prop :=
  ValidFrame (m.map (· ^^^ x)) L

/-- The offset is mapped in the register window of R33 (for a word-aligned offset). -/
def MappedOffset (maxBuf off : Nat) : Prop :=
  off ≤ 0x00020 ∨ (0x00400 ≤ off ∧ off ≤ 0x007FC) ∨ (0x10000 ≤ off ∧ off < 0x10000 + 4 * maxBuf) ∨
    (0x20000 ≤ off ∧ off < 0x20000 + 4 * maxBuf) ∨ (0x30000 ≤ off ∧ off < 0x30000 + 4 * maxBuf)

/-- The offset is one a host may write (R33). -/
def WritableOffset (maxBuf off : Nat) : Prop :=
  off = 0x00000 ∨ off = 0x00008 ∨ off = 0x0000C ∨ (0x10000 ≤ off ∧ off < 0x10000 + 4 * maxBuf)

/-- The table is a bijection of the bytes (R26). -/
def IsBijection (t : PermTable) : Prop :=
  ∀ b : Byte, ∃ i : Byte, t[i.toNat]'i.isLt = b ∧ ∀ j : Byte, t[j.toNat]'j.isLt = b → j = i

/-- How far the lifecycle has come (R22). -/
def lifecycleRank : Lifecycle → Nat
  | .empty => 0
  | .proposed => 1
  | .accepted => 2

/-! ### Invariants -/

/-- The parameter is in its legal range (R7). -/
def ParameterLegal (s : State) : Prop :=
  257 ≤ s.maxBuf ∧ s.maxBuf ≤ 16384

/-- The buffers are in canonical form. -/
def BuffersCanonical (s : State) : Prop :=
  s.ibuf.wf ∧ s.obuf.wf ∧ s.rbuf.wf

/-- The buffers hold bytes at indices below `MAX_BUF` only (R30). -/
def BuffersInRange (s : State) : Prop :=
  (∀ c ∈ s.ibuf, c.1 < s.maxBuf) ∧ (∀ c ∈ s.obuf, c.1 < s.maxBuf) ∧ (∀ c ∈ s.rbuf, c.1 < s.maxBuf)

/-- The lengths are at most `MAX_BUF` (R29, R31). -/
def LengthsLegal (s : State) : Prop :=
  s.ilen.toNat ≤ s.maxBuf ∧ s.olen.toNat ≤ s.maxBuf ∧ s.rlen.toNat ≤ s.maxBuf

/-- `OBUF[0:OLEN]` and `RBUF[0:RLEN]` hold values (R31). -/
def OutputsHeld (s : State) : Prop :=
  (∀ i < s.olen.toNat, ∃ b, s.obuf.read i = some b) ∧ (∀ i < s.rlen.toNat, ∃ b, s.rbuf.read i = some b)

/-- `ERRCODE` and `FINFO` are 0 while no fault is recorded, and a recorded fault has a code (R28, R35, R41). -/
def FaultRecordConsistent (s : State) : Prop :=
  (s.fault = false → s.errcode = .none ∧ s.finfo = 0) ∧ (s.fault = true → s.errcode ≠ .none)

/-- Bits [31:10] of `RESULT` are 0 (R32). -/
def ResultReservedZero (s : State) : Prop :=
  s.result.extractLsb' 10 22 = 0

/-- A held table is the key schedule of `DKEY` (R117). -/
def KeyReachable (s : State) : Prop :=
  ∀ t, s.perm = some t → t = keySchedule s.dkey

/-- While no table is held, the key byte and both indices are 0 (R44, R103, R105, R107). -/
def NoKeyIsZero (s : State) : Prop :=
  s.perm = none → s.dkey = 0 ∧ s.sidx = 0 ∧ s.ridx = 0

/-- A held table is a bijection (R26). -/
def TableBijective (s : State) : Prop :=
  ∀ t, s.perm = some t → IsBijection t

/-- The invariant of the block. -/
structure Inv (s : State) : Prop where
  parameterLegal : ParameterLegal s
  buffersCanonical : BuffersCanonical s
  buffersInRange : BuffersInRange s
  lengthsLegal : LengthsLegal s
  outputsHeld : OutputsHeld s
  faultRecord : FaultRecordConsistent s
  resultReserved : ResultReservedZero s
  keyReachable : KeyReachable s
  noKeyIsZero : NoKeyIsZero s
  tableBijective : TableBijective s

end Sys2Proof
end

