-- ==== Sys2Proof/Certificates/Slice0/Obligations.lean ====
section
/-! DEFINITION. The statements for the provers, each from the spec's numbered rules. -/

open Sys2Proof Sys2Proof.Machine

/-! ### Encoding -/

/-- R82, R90: the word a command is assembled to decodes to that command, every operand at every value. -/
def Obligations.DecodeEncodeRoundTrip : Prop :=
  ∀ i : Instr, decode (encode i) = .ok i

/-- R82: a word that decodes to a command is that command's assembled word, so no two words mean one command. -/
def Obligations.DecodedWordIsTheAssembledWord : Prop :=
  ∀ (w : Word) (i : Instr), decode w = .ok i → encode i = w

/-- R82: "At most one row matches any word." -/
def Obligations.AtMostOneRowMatches : Prop :=
  opcodeRows.Pairwise fun a b => ∀ w : Word, ¬(a.selects w = true ∧ b.selects w = true)

/-- R83: the illegal words are exactly those with an unassigned `OP`, a nonzero reserved field, or an operand field set
where it is not used; writing one to `CMD` with no fault recorded records `ILLEGAL_CMD` with the word, and changes
nothing else. -/
def Obligations.IllegalWordsFaultIllegalCmd : Prop :=
  ∀ w : Word,
    let op := (w.extractLsb' 0 8).toNat
    let illegal := op = 0x00 ∨ (0x06 ≤ op ∧ op ≤ 0x0F) ∨ 0x14 ≤ op ∨ w.extractLsb' 9 7 ≠ 0 ∨
      w.extractLsb' 24 8 ≠ 0 ∨ (w.getLsbD 8 = true ∧ op ≠ 0x04 ∧ op ≠ 0x05) ∨
      (w.extractLsb' 16 8 ≠ 0 ∧ op ≠ 0x10)
    ((∃ r, decode w = .error r) ↔ illegal) ∧
      (illegal → ∀ (s : State) (rest : List HostEvent), s.pending = .write 4 0x00000 w :: rest → s.fault = false →
        step s = .next { s with pending := rest, fault := true, errcode := .illegalCmd, finfo := w })

/-- R82: words of the table, each written out from the rule, decode to the commands they stand for. -/
def Obligations.TableWordsDecode : Prop :=
  decode 0x00000001 = .ok .ksGenprop ∧ decode 0x00000002 = .ok .ksAccept ∧ decode 0x00000003 = .ok .ksUpdate ∧
    decode 0x00000104 = .ok (.ksRkey true) ∧ decode 0x00000005 = .ok (.ksSkey false) ∧
    decode 0x00A50010 = .ok (.frXor 0xA5) ∧ decode 0x00000011 = .ok .frCsum ∧
    decode 0x00000012 = .ok .frVcsum ∧ decode 0x00000013 = .ok .frDecode

/-! ### The step -/

/-- R89, R34: with no fault recorded, a host write to `CMD` of a word that decodes to a command runs that command, on
the state whose pending events no longer hold the write. -/
def Obligations.StepRunsTheDecodedCommand : Prop :=
  ∀ (s : State) (w : Word) (i : Instr) (rest : List HostEvent),
    s.pending = .write 4 0x00000 w :: rest → s.fault = false → decode w = .ok i →
      step s = exec i { s with pending := rest }

/-- R162, R89: while a fault is recorded, a write to `CMD` is dropped: nothing changes. -/
def Obligations.CommandDroppedWhileFaulted : Prop :=
  ∀ (s : State) (w : Word) (rest : List HostEvent),
    s.pending = .write 4 0x00000 w :: rest → s.fault = true → step s = .next { s with pending := rest }

/-- R190, R166: every step from every state answers a next state; nothing stops the block. -/
def Obligations.EveryStepCompletes : Prop :=
  ∀ s : State, ∃ t, step s = .next t

/-- Each step takes exactly the oldest pending event, leaves the parameter MAX_BUF as it is, and with no event pending
changes nothing. (The queue and the idle step are the model's choice, log 3; the place of the parameter, log 1.) -/
def Obligations.StepTakesOneEvent : Prop :=
  ∀ s t : State, step s = .next t →
    t.pending = s.pending.tail ∧ t.maxBuf = s.maxBuf ∧ (s.pending = [] → t = s)

/-! ### Reset and faults -/

/-- R44: the values the spec gives for reset. (`PROPKEY` has no value there and is left out.) -/
def Obligations.ResetValues : Prop :=
  let s := State.reset
  s.lifecycle = .empty ∧ s.dkey = 0 ∧ s.pv = false ∧ s.sidx = 0 ∧ s.ridx = 0 ∧ s.fault = false ∧
    s.errcode = .none ∧ s.finfo = 0 ∧ s.ilen = 0 ∧ s.olen = 0 ∧ s.rlen = 0 ∧ s.result = 0 ∧
    ∀ i, s.ibv i = false ∧ s.ibuf.read i = none ∧ s.obuf.read i = none ∧ s.rbuf.read i = none

/-- R180 to R182: the reset input, and a host write of 1 to `CTRL` whether or not a fault is recorded, leave the reset
state (whatever `PROPKEY` then holds; the parameter and the record of the host's side stay, log 13). -/
def Obligations.ResetInputAndSoftReset : Prop :=
  ∀ (s : State) (e : HostEvent) (rest : List HostEvent), s.pending = e :: rest → IsReset e →
    ∃ k, step s = .next { State.reset with
      propKey := k, maxBuf := s.maxBuf, pending := rest, response := s.response, draws := s.draws }

/-- R36, R182: a `CTRL` write with a reserved bit set faults `ILLEGAL_ACCESS` and nothing else happens; a write of 0 has
no effect; a write of 1 resets (whatever `PROPKEY` then holds; the parameter and the record of the host's side stay,
log 13); a read returns 0. All of it whether or not a fault is recorded. -/
def Obligations.CtrlAccesses : Prop :=
  ∀ (s : State) (w : Word) (rest : List HostEvent),
    (s.pending = .write 4 0x00008 w :: rest → w.extractLsb' 1 31 ≠ 0 →
      step s = .next (if s.fault then { s with pending := rest }
        else { s with pending := rest, fault := true, errcode := .illegalAccess, finfo := 0x00008 })) ∧
    (s.pending = .write 4 0x00008 0 :: rest → step s = .next { s with pending := rest }) ∧
    (s.pending = .write 4 0x00008 1 :: rest → ∃ k, step s = .next { State.reset with
      propKey := k, maxBuf := s.maxBuf, pending := rest, response := s.response, draws := s.draws }) ∧
    (s.pending = .read 4 0x00008 :: rest → step s = .next { s with pending := rest, response := some 0 })

/-- R160, R162, R167: while a fault is recorded, every event but a reset leaves the fault record as it is. -/
def Obligations.OnlyResetClearsFault : Prop :=
  ∀ (s t : State) (e : HostEvent) (rest : List HostEvent),
    s.pending = e :: rest → s.fault = true → ¬IsReset e → step s = .next t →
      t.fault = true ∧ t.errcode = s.errcode ∧ t.finfo = s.finfo

/-- R162: but for commands and for reads of the fault registers, an access behaves while a fault is recorded as it does
when none is: the two next states differ in the fault record at most. -/
def Obligations.FaultRecordDoesNotAffectOtherAccesses : Prop :=
  ∀ (s t : State) (e : HostEvent) (rest : List HostEvent) (f : Bool) (c : ErrCode) (v : Word),
    s.pending = e :: rest → (∀ w, e ≠ .write 4 0x00000 w) → e ≠ .read 4 0x00004 → e ≠ .read 4 0x00020 →
      step s = .next t →
      ∃ f' c' v', step { s with fault := f, errcode := c, finfo := v } =
        .next { t with fault := f', errcode := c', finfo := v' }

/-- R191, R162: a run with a fault recorded and no reset to come never ends well. -/
def Obligations.FaultedRunNeverEndsWell : Prop :=
  ∀ s : State, s.fault = true → (∀ e ∈ s.pending, ¬IsReset e) → ¬EndsWell s

/-- R160, R12: a command that raises a fault writes the fault record and nothing else, with its own word as the
information. -/
def Obligations.FaultingCommandWritesOnlyTheFaultRecord : Prop :=
  ∀ (i : Instr) (s t : State), s.fault = false → exec i s = .next t → t.fault = true →
    t.errcode ≠ .none ∧ t = { s with fault := true, errcode := t.errcode, finfo := encode i }

/-- R32, R186: what a command that raises no fault leaves does not depend on the results of earlier commands: it writes
all of `RESULT`, `OLEN` and `RLEN`. -/
def Obligations.CompletedCommandRewritesAllResults : Prop :=
  ∀ (i : Instr) (s t : State) (r : Word) (o l : Half), s.fault = false → exec i s = .next t → t.fault = false →
    exec i { s with result := r, olen := o, rlen := l } = .next t

/-- R89, R163: a command that reads its input raises `UNINIT_INPUT`, before any fault of its own, when some byte of
`IBUF[0:ILEN]` was never written. -/
def Obligations.UnwrittenInputFaults : Prop :=
  ∀ (i : Instr) (s : State),
    (i = .ksUpdate ∨ (∃ x, i = .frXor x) ∨ i = .frCsum ∨ i = .frVcsum ∨ i = .frDecode) →
      s.fault = false → (∃ k < s.ilen.toNat, s.ibuf.read k = none) →
      exec i s = .next { s with fault := true, errcode := .uninitInput, finfo := encode i }

/-! ### The Keystream Unit -/

/-- R100: KS.GENPROP, word 0x00000001, from Empty or Proposed stores 8 draws in `PROPKEY`, copies them to
`OBUF[0..7]`, sets `STATE` to Proposed and the results, and changes nothing else; from Accepted it faults
`GENPROP_AFTER_ACCEPT`. -/
def Obligations.GenpropStoresTheDraws : Prop :=
  ∀ s : State, decode 0x00000001 = .ok .ksGenprop ∧
    (s.lifecycle ≠ .accepted → ∃ t, exec .ksGenprop s = .next t ∧
      (∀ (k : Nat) (h : k < 8), t.propKey[k] = Config.drawByte (s.draws + k) ∧
        t.obuf.read k = some (t.propKey[k])) ∧
      (∀ k, 8 ≤ k → t.obuf.read k = s.obuf.read k) ∧
      t = { s with propKey := t.propKey, obuf := t.obuf, lifecycle := .proposed, olen := 8, rlen := 0, result := 0,
                   draws := s.draws + 8 }) ∧
    (s.lifecycle = .accepted → s.fault = false →
      exec .ksGenprop s =
        .next { s with fault := true, errcode := .genpropAfterAccept, finfo := 0x00000001 })

/-- R101: KS.ACCEPT, word 0x00000002, from Proposed derives the key whose bit `k` is bit 3 of `PROPKEY[k]`, sets
`STATE` to Accepted and both indices to 0, and changes nothing else but the results; otherwise it faults
`ACCEPT_NO_PROPOSAL`. -/
def Obligations.AcceptDerivesFromTheProposal : Prop :=
  ∀ s : State, decode 0x00000002 = .ok .ksAccept ∧
    (s.lifecycle = .proposed → ∃ t, exec .ksAccept s = .next t ∧
      (∀ (k : Nat) (h : k < 8), t.dkey.getLsbD k = (s.propKey[k]).getLsbD 3) ∧
      t = { s with dkey := t.dkey, perm := some (keySchedule t.dkey), sidx := 0, ridx := 0, lifecycle := .accepted,
                   olen := 0, rlen := 0, result := 0 }) ∧
    (s.lifecycle ≠ .proposed → s.fault = false →
      exec .ksAccept s = .next { s with fault := true, errcode := .acceptNoProposal, finfo := 0x00000002 })

/-- R110, R102, R103: KS.UPDATE, word 0x00000003, on a written input of fewer than 12 bytes clears the key; on 12
bytes or more it derives the key whose bit `k` is bit 3 of input byte `4+k`; either way nothing else changes but the
results. -/
def Obligations.UpdateDerivesOrClears : Prop :=
  ∀ s : State, InputHeld s → decode 0x00000003 = .ok .ksUpdate ∧
    (s.ilen.toNat < 12 → exec .ksUpdate s =
      .next { s with perm := none, dkey := 0, sidx := 0, ridx := 0, olen := 0, rlen := 0, result := 0 }) ∧
    (12 ≤ s.ilen.toNat → ∃ t, exec .ksUpdate s = .next t ∧
      (∀ k < 8, ∃ b, s.ibuf.read (4 + k) = some b ∧ t.dkey.getLsbD k = b.getLsbD 3) ∧
      t = { s with dkey := t.dkey, perm := some (keySchedule t.dkey), sidx := 0, ridx := 0,
                   olen := 0, rlen := 0, result := 0 })

/-- R108: bit `k` of the derived key is bit 3 of packet byte `4+k`. -/
def Obligations.KeyByteIsBitThreeOfTheKeyBytes : Prop :=
  ∀ p : List Byte, 12 ≤ p.length → ∀ k < 8, ∃ b, p[4 + k]? = some b ∧ (deriveKeyByte p).getLsbD k = b.getLsbD 3

/-- R109, R111: every key schedule is a bijection of the bytes. -/
def Obligations.KeyScheduleIsBijective : Prop :=
  ∀ d : Byte, IsBijection (keySchedule d)

/-- R109: the key schedule is what 256 rounds of the rule make of the identity, with the table before round `n` as the
numbers `S n` and the running index as `j n`: the index advances by entry `n` and the key byte modulo 256, then entries
`n` and the index change places and every other entry stays. -/
def Obligations.KeyScheduleFollowsTheRounds : Prop :=
  ∀ d : Byte, ∃ (S : Nat → Nat → Nat) (j : Nat → Nat),
    j 0 = 0 ∧ (∀ i < 256, S 0 i = i) ∧
    (∀ n < 256, j (n + 1) = (j n + S n n + d.toNat) % 256 ∧ S (n + 1) n = S n (j (n + 1)) ∧
      S (n + 1) (j (n + 1)) = S n n ∧ ∀ i < 256, i ≠ n → i ≠ j (n + 1) → S (n + 1) i = S n i) ∧
    ∀ i : Byte, ((keySchedule d)[i.toNat]'i.isLt).toNat = S 256 i.toNat

/-- R105: KS.RKEY, word 0x00000004 or 0x00000104, answers the table's byte at `RIDX` and, if told to, then advances
`RIDX` modulo 256; with no table it answers 0 and leaves `RIDX`; nothing else changes but the results. -/
def Obligations.RkeyReadsThenAdvances : Prop :=
  ∀ (s : State) (inc : Bool),
    decode (if inc then 0x00000104 else 0x00000004) = .ok (.ksRkey inc) ∧
    (∀ p, s.perm = some p → exec (.ksRkey inc) s =
      .next { s with ridx := BitVec.ofNat 8 ((s.ridx.toNat + if inc then 1 else 0) % 256),
                     result := (p[s.ridx.toNat]'s.ridx.isLt).setWidth 32, olen := 0, rlen := 0 }) ∧
    (s.perm = none → exec (.ksRkey inc) s = .next { s with result := 0, olen := 0, rlen := 0 })

/-- R107: KS.SKEY, word 0x00000005 or 0x00000105, answers the table's byte at `SIDX` and, if told to, then advances
`SIDX` modulo 256; with no table it answers 0 and leaves `SIDX`; nothing else changes but the results. -/
def Obligations.SkeyReadsThenAdvances : Prop :=
  ∀ (s : State) (inc : Bool),
    decode (if inc then 0x00000105 else 0x00000005) = .ok (.ksSkey inc) ∧
    (∀ p, s.perm = some p → exec (.ksSkey inc) s =
      .next { s with sidx := BitVec.ofNat 8 ((s.sidx.toNat + if inc then 1 else 0) % 256),
                     result := (p[s.sidx.toNat]'s.sidx.isLt).setWidth 32, olen := 0, rlen := 0 }) ∧
    (s.perm = none → exec (.ksSkey inc) s = .next { s with result := 0, olen := 0, rlen := 0 })

/-- R113: from index 0 of a held table, the `n`-th advancing keystream command answers entry `n` modulo 256, in either
direction. -/
def Obligations.KeystreamRotatesThroughTheTable : Prop :=
  ∀ (s : State) (p : PermTable) (n : Nat), s.perm = some p →
    (s.ridx = 0 → ∃ t, repeatCommand (.ksRkey true) (n + 1) s = .next t ∧
      t.rbyte = p[n % 256]'(Nat.mod_lt n (by decide)) ∧ t.ridx = BitVec.ofNat 8 (n + 1)) ∧
    (s.sidx = 0 → ∃ t, repeatCommand (.ksSkey true) (n + 1) s = .next t ∧
      t.rbyte = p[n % 256]'(Nat.mod_lt n (by decide)) ∧ t.sidx = BitVec.ofNat 8 (n + 1))

/-- R187: a peek and the advancing command after it answer the same byte, in either direction. -/
def Obligations.PeekThenConsumeAnswersTheSameByte : Prop :=
  ∀ s t : State,
    (exec (.ksRkey false) s = .next t → ∃ u, exec (.ksRkey true) t = .next u ∧ u.rbyte = t.rbyte) ∧
    (exec (.ksSkey false) s = .next t → ∃ u, exec (.ksSkey true) t = .next u ∧ u.rbyte = t.rbyte)

/-- R115: while no table is held, both keystream commands answer 0 whatever `INC` is, and only KS.ACCEPT, or KS.UPDATE
with 12 bytes or more, installs a table. -/
def Obligations.NoTableAnswersZeroUntilADerive : Prop :=
  ∀ s : State, s.perm = none →
    (∀ inc, (∃ t, exec (.ksRkey inc) s = .next t ∧ t.rbyte = 0) ∧ ∃ t, exec (.ksSkey inc) s = .next t ∧ t.rbyte = 0) ∧
    (∀ (i : Instr) (t : State), exec i s = .next t → t.perm ≠ none →
      i = .ksAccept ∨ (i = .ksUpdate ∧ 12 ≤ s.ilen.toNat))

/-- R47: while no table is held, `SIDX` and `RIDX` affect no keystream byte, and a command that installs a table leaves
both 0. -/
def Obligations.IndicesAffectNoByteWithoutATable : Prop :=
  ∀ (i : Instr) (s t : State) (a b : Byte), s.perm = none → exec i s = .next t →
    (t.perm ≠ none → t.sidx = 0 ∧ t.ridx = 0) ∧
    ((∃ c, i = .ksRkey c) ∨ (∃ c, i = .ksSkey c) →
      ∃ u, exec i { s with sidx := a, ridx := b } = .next u ∧ u.rbyte = t.rbyte)

/-- R112: two KS.UPDATE commands with the same written input leave the same table and key byte, and both indices 0. -/
def Obligations.UpdateIsIdempotent : Prop :=
  ∀ (s₁ s₂ t₁ t₂ : State) (m : List Byte), s₁.input = some m → s₂.input = some m →
    exec .ksUpdate s₁ = .next t₁ → exec .ksUpdate s₂ = .next t₂ →
      t₁.perm = t₂.perm ∧ t₁.dkey = t₂.dkey ∧ t₁.sidx = 0 ∧ t₁.ridx = 0 ∧ t₂.sidx = 0 ∧ t₂.ridx = 0 ∧
        exec .ksUpdate t₁ = .next t₁

/-- R114: KS.RKEY neither reads nor writes `SIDX`, and KS.SKEY neither reads nor writes `RIDX`. -/
def Obligations.DirectionsAreIndependent : Prop :=
  ∀ (s t : State) (inc : Bool) (v : Byte),
    (exec (.ksRkey inc) s = .next t →
      t.sidx = s.sidx ∧ exec (.ksRkey inc) { s with sidx := v } = .next { t with sidx := v }) ∧
    (exec (.ksSkey inc) s = .next t →
      t.ridx = s.ridx ∧ exec (.ksSkey inc) { s with ridx := v } = .next { t with ridx := v })

/-- R22, R180: the lifecycle never moves back but by a reset, and no step but a reset moves it except one that takes,
with no fault recorded, a `CMD` write of KS.GENPROP (from Empty to Proposed) or of KS.ACCEPT (from Proposed to
Accepted); no other command moves it. -/
def Obligations.LifecycleMovesForward : Prop :=
  (∀ (s t : State) (e : HostEvent) (rest : List HostEvent),
    s.pending = e :: rest → ¬IsReset e → step s = .next t →
      lifecycleRank s.lifecycle ≤ lifecycleRank t.lifecycle) ∧
  (∀ s t : State, step s = .next t → t.lifecycle ≠ s.lifecycle → ∃ e rest, s.pending = e :: rest ∧
    (IsReset e ∨
      (s.fault = false ∧ e = .write 4 0x00000 0x00000001 ∧ s.lifecycle = .empty ∧ t.lifecycle = .proposed) ∨
      (s.fault = false ∧ e = .write 4 0x00000 0x00000002 ∧ s.lifecycle = .proposed ∧ t.lifecycle = .accepted))) ∧
  (∀ (i : Instr) (s t : State), exec i s = .next t → t.lifecycle ≠ s.lifecycle →
    (i = .ksGenprop ∧ s.lifecycle = .empty ∧ t.lifecycle = .proposed) ∨
      (i = .ksAccept ∧ s.lifecycle = .proposed ∧ t.lifecycle = .accepted))

/-- R48, R45: outside Proposed no event reads `PROPKEY`: changing it changes nothing else in the next state. -/
def Obligations.ProposalIsReadOnlyInProposed : Prop :=
  ∀ (s t : State) (k : Vector Byte 8), s.lifecycle ≠ .proposed → step s = .next t →
    ∃ k', step { s with propKey := k } = .next { t with propKey := k' }

/-! ### The Framer Unit -/

/-- R131: FR.XOR, word `0x00XX0010`, on a written input puts each input byte XOR `x` in `OBUF[0:ILEN]`, leaves the
rest of `OBUF` and all else but the results as they were. -/
def Obligations.XorTransformsTheWholeInput : Prop :=
  ∀ (s : State) (x : Byte), InputHeld s → decode (0x00000010 ||| (x.setWidth 32 <<< 16)) = .ok (.frXor x) ∧
    ∃ t, exec (.frXor x) s = .next t ∧
    (∀ i < s.ilen.toNat, ∃ b, s.ibuf.read i = some b ∧ t.obuf.read i = some (b ^^^ x)) ∧
    (∀ i, s.ilen.toNat ≤ i → t.obuf.read i = s.obuf.read i) ∧
    t = { s with obuf := t.obuf, olen := s.ilen, rlen := 0, result := 0 }

/-- R133: FR.CSUM, word 0x00000011, on a written input that holds its declared frame answers the sum modulo 256 of all
its bytes but the last, and changes nothing else but the results; on a shorter input it faults `CSUM_SHORT`. -/
def Obligations.CsumSumsTheDeclaredFrame : Prop :=
  ∀ (s : State) (m : List Byte), s.input = some m → decode 0x00000011 = .ok .frCsum ∧
    (∀ L, DeclaresFrame m L → exec .frCsum s =
      .next { s with result := BitVec.ofNat 32 (sumMod256 m (L - 1)), olen := 0, rlen := 0 }) ∧
    ((¬∃ L, DeclaresFrame m L) → s.fault = false →
      exec .frCsum s = .next { s with fault := true, errcode := .csumShort, finfo := 0x00000011 })

/-- R134, R135: FR.VCSUM, word 0x00000012, on a written input answers `RFLAG` = 1 exactly when the input starts with a
whole frame whose last byte is the sum of the others, and changes nothing else but the results. -/
def Obligations.VcsumAcceptsExactlyValidFrames : Prop :=
  ∀ (s : State) (m : List Byte), s.input = some m → decode 0x00000012 = .ok .frVcsum ∧
    ((∃ L, ValidFrame m L) → exec .frVcsum s = .next { s with result := 0x00000100, olen := 0, rlen := 0 }) ∧
    ((¬∃ L, ValidFrame m L) → exec .frVcsum s = .next { s with result := 0, olen := 0, rlen := 0 })

/-- R136, R137: on an input of 4 bytes or more that is valid under the key `m[2]`, or only under that byte with its low
bit flipped, FR.DECODE puts the decoded frame in `OBUF`, the raw rest in `RBUF`, the key and flags in `RESULT`, leaves
the rest of both buffers, and changes nothing else. -/
def Obligations.DecodeReturnsTheFrame : Prop :=
  ∀ (s : State) (m : List Byte) (x y : Byte) (L : Nat), s.input = some m → 4 ≤ m.length → m[2]? = some x →
    ((y = x ∧ ValidUnder m x L) ∨ (y = x ^^^ 1 ∧ (¬∃ K, ValidUnder m x K) ∧ ValidUnder m (x ^^^ 1) L)) →
    ∃ t, exec .frDecode s = .next t ∧
      (∀ i < L, ∃ b, m[i]? = some b ∧ t.obuf.read i = some (b ^^^ y)) ∧
      (∀ i, L ≤ i → t.obuf.read i = s.obuf.read i) ∧
      (∀ i < m.length - L, t.rbuf.read i = m[L + i]?) ∧
      (∀ i, m.length - L ≤ i → t.rbuf.read i = s.rbuf.read i) ∧
      t = { s with obuf := t.obuf, rbuf := t.rbuf, olen := BitVec.ofNat 16 L, rlen := BitVec.ofNat 16 (m.length - L),
                   result := y.setWidth 32 ||| 0x100 ||| (if L < m.length then 0x200 else 0) }

/-- R136, R143, R164: on a written input of fewer than 4 bytes, or valid under neither candidate key, FR.DECODE answers
absent: zero results, no fault, nothing else changed. -/
def Obligations.DecodeAbsentIsNoFault : Prop :=
  ∀ (s : State) (m : List Byte), s.input = some m →
    (m.length < 4 ∨ ∃ x, m[2]? = some x ∧ (¬∃ L, ValidUnder m x L) ∧ ¬∃ L, ValidUnder m (x ^^^ 1) L) →
    exec .frDecode s = .next { s with result := 0, olen := 0, rlen := 0 }

/-- R138, R144: after a successful FR.DECODE the key is `IBUF[2]` or that byte with its low bit flipped, and a frame
of 3 bytes or more has 0 or 1 as its byte 2 accordingly. -/
def Obligations.DecodedByteTwoNamesTheCandidate : Prop :=
  ∀ (s t : State) (m : List Byte), s.input = some m → exec .frDecode s = .next t → t.rflag = true →
    ∃ x, m[2]? = some x ∧
      ((t.rbyte = x ∧ (3 ≤ t.olen.toNat → t.obuf.read 2 = some 0)) ∨
        (t.rbyte = x ^^^ 1 ∧ (3 ≤ t.olen.toNat → t.obuf.read 2 = some 1)))

/-- R137: after a successful FR.DECODE, `2 <= OLEN <= 257`, `OLEN + RLEN = ILEN`, and `REMV` = 1 exactly when there is a
remainder byte. -/
def Obligations.DecodeLengthsAddUp : Prop :=
  ∀ (s t : State) (m : List Byte), s.input = some m → exec .frDecode s = .next t → t.rflag = true →
    2 ≤ t.olen.toNat ∧ t.olen.toNat ≤ 257 ∧ t.olen.toNat + t.rlen.toNat = s.ilen.toNat ∧
      (t.remv = true ↔ 1 ≤ t.rlen.toNat)

/-- R140: the lengths the two candidates declare differ by exactly 1. -/
def Obligations.CandidateLengthsDifferByOne : Prop :=
  ∀ (m : List Byte) (x : Byte) (L₁ L₂ : Nat), frameLength (xorBytes m x) = some L₁ →
    frameLength (xorBytes m (x ^^^ 1)) = some L₂ → L₂ = L₁ + 1 ∨ L₁ = L₂ + 1

/-- R141, R139: a valid frame of 3 bytes or more, obfuscated with the byte `k` and followed by any bytes, decodes to that
frame with the key `k` and those bytes as the remainder, if its byte 2 is 0, or if its byte 2 is 1 and the first
candidate fails. (A frame of 2 bytes has no byte 2; DecodeReturnsTheFrame covers it.) -/
def Obligations.DecodeSplitsFrameAndRemainder : Prop :=
  ∀ (f rest : List Byte) (k : Byte), ValidFrame f f.length → 4 ≤ f.length + rest.length →
    (f[2]? = some 0 ∨ (f[2]? = some 1 ∧ ¬∃ L, ValidUnder (xorBytes f k ++ rest) (k ^^^ 1) L)) →
    decodeFrame (xorBytes f k ++ rest) = some ⟨f, k, if rest = [] then none else some rest⟩

/-- R142: XORing twice with one byte gives the buffer back, so a checksum validates after it as before; and FR.XOR on
its own output, loaded as the next input, gives back the first input. -/
def Obligations.XorIsAnInvolution : Prop :=
  (∀ (m : List Byte) (x : Byte), xorBytes (xorBytes m x) x = m ∧
    validateChecksum (xorBytes (xorBytes m x) x) = validateChecksum m) ∧
  (∀ (s t u v : State) (x : Byte) (m : List Byte), s.input = some m → exec (.frXor x) s = .next t →
    u.ilen = t.olen → (∀ i < u.ilen.toNat, u.ibuf.read i = t.obuf.read i) → exec (.frXor x) u = .next v →
      v.olen = s.ilen ∧ ∀ i < s.ilen.toNat, v.obuf.read i = s.ibuf.read i)

/-! ### Separation of the units and of the input -/

/-- R116: the FR commands neither read nor write any Keystream Unit state, and the KS commands read neither `OBUF` nor
`RBUF`: with any other bytes there they leave the same state, but for the bytes themselves, of which a KS.GENPROP that
is not refused replaces `OBUF[0..7]`, by the same bytes, and nothing else replaces any. -/
def Obligations.UnitsAreSeparate : Prop :=
  (∀ (i : Instr) (s t : State), (∃ x, i = .frXor x) ∨ i = .frCsum ∨ i = .frVcsum ∨ i = .frDecode →
    exec i s = .next t →
    (t.lifecycle = s.lifecycle ∧ t.propKey = s.propKey ∧ t.dkey = s.dkey ∧ t.perm = s.perm ∧ t.sidx = s.sidx ∧
      t.ridx = s.ridx) ∧
    ∀ (l : Lifecycle) (k : Vector Byte 8) (d : Byte) (p : Option PermTable) (a b : Byte),
      exec i { s with lifecycle := l, propKey := k, dkey := d, perm := p, sidx := a, ridx := b } =
        .next { t with lifecycle := l, propKey := k, dkey := d, perm := p, sidx := a, ridx := b }) ∧
  (∀ (i : Instr) (s t : State),
    i = .ksGenprop ∨ i = .ksAccept ∨ i = .ksUpdate ∨ (∃ c, i = .ksRkey c) ∨ (∃ c, i = .ksSkey c) →
    exec i s = .next t → t.rbuf = s.rbuf ∧
    ∀ o r : Memory, ∃ o', exec i { s with obuf := o, rbuf := r } = .next { t with obuf := o', rbuf := r } ∧
      ∀ a, o'.read a =
        if i = .ksGenprop ∧ s.lifecycle ≠ .accepted ∧ a < 8 then t.obuf.read a else o.read a)

/-- R74: no command writes `IBUF`, `IBV` or `ILEN`. -/
def Obligations.NoCommandWritesTheInput : Prop :=
  ∀ (i : Instr) (s t : State), exec i s = .next t → t.ibuf = s.ibuf ∧ t.ilen = s.ilen ∧ ∀ k, t.ibv k = s.ibv k

/-! ### The register bus -/

/-- R61, R33: an access that is not a word access on a word-aligned mapped offset, and a write to a read-only location,
fault `ILLEGAL_ACCESS` with the offset; a write changes nothing else, and a read answers an unconstrained word. (That an
offset of 0x40000 or more, outside the window, faults so too is the model's reading of R33's last row, log 9.) -/
def Obligations.IllegalAccessesFault : Prop :=
  ∀ (s : State) (bytes : Nat) (off w : Word) (rest : List HostEvent), ParameterLegal s → s.fault = false →
    (s.pending = .write bytes off w :: rest →
      (bytes ≠ 4 ∨ off.toNat % 4 ≠ 0 ∨ ¬WritableOffset s.maxBuf off.toNat) →
      step s = .next { s with pending := rest, fault := true, errcode := .illegalAccess, finfo := off }) ∧
    (s.pending = .read bytes off :: rest →
      (bytes ≠ 4 ∨ off.toNat % 4 ≠ 0 ∨ ¬MappedOffset s.maxBuf off.toNat) →
      step s = .next { s with
        pending := rest, fault := true, errcode := .illegalAccess, finfo := off,
        response := some (Config.drawWord s.draws), draws := s.draws + 1 })

/-- R63, R67: a read of a mapped location has no side effect: only the host's side of the state changes. -/
def Obligations.LegalReadHasNoSideEffect : Prop :=
  ∀ (s t : State) (off : Word) (rest : List HostEvent), ParameterLegal s → s.pending = .read 4 off :: rest →
    off.toNat % 4 = 0 → MappedOffset s.maxBuf off.toNat → step s = .next t →
      ∃ w, t = { s with pending := rest, response := some w, draws := t.draws }

/-- R34, R37, R38, R39, R41: reads of `CMD`, `ILEN`, `OLEN`, `RLEN`, `RESULT` and `FINFO` answer the words these rules
give. -/
def Obligations.RegisterReads : Prop :=
  ∀ (s : State) (off w : Word) (rest : List HostEvent), s.pending = .read 4 off :: rest →
    (off, w) ∈ [((0x00000 : Word), (0 : Word)), (0x0000C, s.ilen.setWidth 32), (0x00010, s.olen.setWidth 32),
      (0x00014, s.rlen.setWidth 32), (0x00018, s.result), (0x00020, s.finfo)] →
    step s = .next { s with pending := rest, response := some w }

/-- R35, R40, with the codes of R161 and R22: `STATUS` and `KSTAT` read field by field as the rules lay them out, and
reading them has no side effect. -/
def Obligations.StatusAndKstatFields : Prop :=
  ∀ (s : State) (rest : List HostEvent),
    (s.pending = .read 4 0x00004 :: rest → ∃ w : Word, step s = .next { s with pending := rest, response := some w } ∧
      w.getLsbD 0 = s.fault ∧ w.extractLsb' 1 7 = 0 ∧ w.extractLsb' 16 16 = 0 ∧
      (s.errcode, w.extractLsb' 8 8) ∈ [(ErrCode.none, (0 : Byte)), (.illegalCmd, 1), (.csumShort, 2),
        (.acceptNoProposal, 3), (.genpropAfterAccept, 4), (.illegalAccess, 5), (.ilenRange, 6), (.uninitInput, 7)]) ∧
    (s.pending = .read 4 0x0001C :: rest → ∃ w : Word, step s = .next { s with pending := rest, response := some w } ∧
      (s.lifecycle, w.extractLsb' 0 2) ∈ [(Lifecycle.empty, (0 : BitVec 2)), (.proposed, 1), (.accepted, 2)] ∧
      w.getLsbD 2 = s.perm.isSome ∧ w.extractLsb' 3 5 = 0 ∧
      w.extractLsb' 8 8 = s.dkey ∧ w.extractLsb' 16 8 = s.sidx ∧ w.extractLsb' 24 8 = s.ridx)

/-- R42: `PERMWIN[i]` reads entry `i` of the table, and 0 while there is none. -/
def Obligations.PermwinReadsTheTable : Prop :=
  ∀ (s : State) (i : Byte) (rest : List HostEvent),
    s.pending = .read 4 (BitVec.ofNat 32 (0x00400 + 4 * i.toNat)) :: rest →
    (∀ p, s.perm = some p →
      step s = .next { s with pending := rest, response := some ((p[i.toNat]'i.isLt).setWidth 32) }) ∧
    (s.perm = none → step s = .next { s with pending := rest, response := some 0 })

/-- R63, R43: a buffer byte read answers the byte held (in `OBUF` and `RBUF` only below `OLEN` and `RLEN`),
zero-extended; otherwise a drawn byte. (That a byte of `OBUF` below `OLEN`, or of `RBUF` below `RLEN`, that holds no value
answers a draw is the model's choice, log 8, in states that OutputsHeld rules out.) -/
def Obligations.BufferReads : Prop :=
  ∀ (s : State) (i base : Nat) (held : Option Byte) (rest : List HostEvent), ParameterLegal s → i < s.maxBuf →
    (base, held) ∈ [(0x10000, s.ibuf.read i), (0x20000, if i < s.olen.toNat then s.obuf.read i else none),
      (0x30000, if i < s.rlen.toNat then s.rbuf.read i else none)] →
    s.pending = .read 4 (BitVec.ofNat 32 (base + 4 * i)) :: rest →
    (∀ b, held = some b → step s = .next { s with pending := rest, response := some (b.setWidth 32) }) ∧
    (held = none → step s = .next { s with
      pending := rest, response := some ((Config.drawByte s.draws).setWidth 32), draws := s.draws + 1 })

/-- R62, R43: a write to `IBUF[i]` sets byte `i` to bits [7:0] of the word and `IBV[i]` to 1, whether or not a fault is
recorded, and leaves every other byte and all else. -/
def Obligations.InputByteWrite : Prop :=
  ∀ (s : State) (i : Nat) (w : Word) (rest : List HostEvent), ParameterLegal s → i < s.maxBuf →
    s.pending = .write 4 (BitVec.ofNat 32 (0x10000 + 4 * i)) w :: rest →
    ∃ t, step s = .next t ∧ t.ibuf.read i = some (w.extractLsb' 0 8) ∧ t.ibv i = true ∧
      (∀ j, j ≠ i → t.ibuf.read j = s.ibuf.read j) ∧ t = { s with pending := rest, ibuf := t.ibuf }

/-- R37: a write of `ILEN` sets it when its upper half is 0 and it is at most `MAX_BUF`, and otherwise faults
`ILEN_RANGE` with the word and leaves it; a read answers it zero-extended. -/
def Obligations.IlenAccesses : Prop :=
  ∀ (s : State) (w : Word) (rest : List HostEvent),
    (s.pending = .write 4 0x0000C w :: rest →
      (w.extractLsb' 16 16 = 0 ∧ (w.extractLsb' 0 16).toNat ≤ s.maxBuf →
        step s = .next { s with pending := rest, ilen := w.extractLsb' 0 16 }) ∧
      (w.extractLsb' 16 16 ≠ 0 ∨ s.maxBuf < (w.extractLsb' 0 16).toNat →
        step s = .next (if s.fault then { s with pending := rest }
          else { s with pending := rest, fault := true, errcode := .ilenRange, finfo := w }))) ∧
    (s.pending = .read 4 0x0000C :: rest →
      step s = .next { s with pending := rest, response := some (s.ilen.setWidth 32) })

/-! ### Invariants -/

/-- The state right after reset meets the invariant. -/
def Obligations.ResetMeetsTheInvariant : Prop :=
  Inv State.reset

/-- Every step keeps every buffer in canonical form and within `MAX_BUF`, the lengths legal, and the outputs held
(R29 to R31). -/
def Obligations.StepKeepsTheBuffers : Prop :=
  ∀ s t : State, ParameterLegal s → BuffersCanonical s → BuffersInRange s → LengthsLegal s → OutputsHeld s →
    step s = .next t → BuffersCanonical t ∧ BuffersInRange t ∧ LengthsLegal t ∧ OutputsHeld t

/-- R26: every step keeps a held table a bijection. -/
def Obligations.StepKeepsTheTableBijective : Prop :=
  ∀ s t : State, TableBijective s → step s = .next t → TableBijective t

/-- R117: every step keeps a held table the key schedule of `DKEY`, and key byte and indices 0 while none is held. -/
def Obligations.StepKeepsTheKeyReachable : Prop :=
  ∀ s t : State, KeyReachable s → NoKeyIsZero s → step s = .next t → KeyReachable t ∧ NoKeyIsZero t

/-- R28, R35, R41: every step keeps `ERRCODE` and `FINFO` 0 while no fault is recorded, and a code with a fault. -/
def Obligations.StepKeepsTheFaultRecord : Prop :=
  ∀ s t : State, FaultRecordConsistent s → step s = .next t → FaultRecordConsistent t

/-- Every step keeps the whole invariant of the block. -/
def Obligations.StepKeepsTheInvariant : Prop :=
  ∀ s t : State, Inv s → step s = .next t → Inv t
end

