-- ==== Sys2Proof/Laws/Memory.lean ====
section
/-! SUPPORT. The laws of the byte buffers: read after write, the canonical form, and what the slice reads and the
sequence writes say byte by byte. -/

namespace Sys2Proof.Machine

@[simp] theorem Memory.read_nil (i : Nat) : Memory.read [] i = none := rfl

theorem Memory.read_cons (c : Host.Cell) (m : Memory) (i : Nat) :
    Memory.read (c :: m) i = if c.1 = i then some c.2 else Memory.read m i := rfl

/-- An index below every listed one holds no value. -/
theorem Memory.read_eq_none_of_lt {m : Memory} {i : Nat} (h : ∀ c ∈ m, i < c.1) : Memory.read m i = none := by
  induction m with
  | nil => rfl
  | cons c m ih =>
    have hc := h c (by simp)
    rw [Memory.read_cons, if_neg (by omega), ih fun d hd => h d (by simp [hd])]

/-- A read finds exactly the listed cells. -/
theorem Memory.read_eq_some_iff {m : Memory} (hm : m.wf) (i : Nat) (b : Byte) :
    m.read i = some b ↔ (i, b) ∈ m := by
  induction m with
  | nil => simp
  | cons c m ih =>
    obtain ⟨hc, hm'⟩ := List.pairwise_cons.1 hm
    rw [Memory.read_cons]
    split
    · next h =>
      subst h
      constructor
      · rintro ⟨⟩; simp
      · intro hmem
        rcases List.mem_cons.1 hmem with h | h
        · rw [← h]
        · exact absurd (hc _ h) (by simp)
    · next h =>
      rw [ih hm', List.mem_cons]
      constructor
      · exact .inr
      · rintro (h' | h')
        · exact absurd (by rw [← h']) h
        · exact h'

/-! ### One byte -/

@[simp] theorem Memory.read_write_same (m : Memory) (i : Nat) (b : Byte) : (m.write i b).read i = some b := by
  induction m with
  | nil => simp [Memory.write, Memory.read_cons]
  | cons c m ih =>
    rw [Memory.write]
    split
    · simp [Memory.read_cons]
    · split
      · simp [Memory.read_cons]
      · rw [Memory.read_cons, if_neg (by omega), ih]

theorem Memory.read_write_other (m : Memory) {i j : Nat} (h : j ≠ i) (b : Byte) :
    (m.write i b).read j = m.read j := by
  induction m with
  | nil => simp [Memory.write, Memory.read_cons, Ne.symm h]
  | cons c m ih =>
    rw [Memory.write]
    split
    · rw [Memory.read_cons, if_neg (Ne.symm h)]
    · split
      · next h2 => rw [Memory.read_cons, Memory.read_cons, if_neg (Ne.symm h), if_neg (by omega)]
      · rw [Memory.read_cons, Memory.read_cons, ih]

theorem Memory.mem_write {m : Memory} {i : Nat} {b : Byte} {c : Host.Cell} (h : c ∈ m.write i b) :
    c = (i, b) ∨ c ∈ m := by
  induction m with
  | nil => simpa [Memory.write] using h
  | cons d m ih =>
    rw [Memory.write] at h
    split at h
    · simpa using h
    · split at h
      · rcases List.mem_cons.1 h with h | h
        · exact .inl h
        · exact .inr (by simp [h])
      · rcases List.mem_cons.1 h with h | h
        · exact .inr (by simp [h])
        · exact (ih h).imp_right fun h => by simp [h]

/-- A one-byte write keeps the canonical form. -/
theorem Memory.wf_write {m : Memory} (hm : m.wf) (i : Nat) (b : Byte) : (m.write i b).wf := by
  induction m with
  | nil => simp [Memory.write, Memory.wf]
  | cons c m ih =>
    obtain ⟨hc, hm'⟩ := List.pairwise_cons.1 hm
    rw [Memory.write]
    split
    · next h => exact List.pairwise_cons.2 ⟨fun d hd => by
        rcases List.mem_cons.1 hd with rfl | hd
        · exact h
        · have := hc d hd; omega, hm⟩
    · split
      · next h => exact List.pairwise_cons.2 ⟨fun d hd => by have := hc d hd; simp only; omega, hm'⟩
      · refine List.pairwise_cons.2 ⟨fun d hd => ?_, ih hm'⟩
        rcases Memory.mem_write hd with rfl | hd
        · simp only; omega
        · exact hc d hd

/-! ### Byte sequences -/

theorem Memory.mem_cellsFrom {bs : List Byte} {start : Nat} {c : Host.Cell}
    (h : c ∈ Memory.cellsFrom start bs) : start ≤ c.1 ∧ c.1 < start + bs.length := by
  induction bs generalizing start with
  | nil => simp [Memory.cellsFrom] at h
  | cons b bs ih =>
    rcases List.mem_cons.1 h with rfl | h
    · simp
    · have := ih h
      simp only [List.length_cons]
      omega

theorem Memory.wf_cellsFrom (bs : List Byte) (start : Nat) : (Memory.cellsFrom start bs).wf := by
  induction bs generalizing start with
  | nil => simp [Memory.cellsFrom, Memory.wf]
  | cons b bs ih =>
    exact List.pairwise_cons.2 ⟨fun d hd => by have := Memory.mem_cellsFrom hd; simp only; omega, ih _⟩

/-- A sequence write keeps the canonical form. -/
theorem Memory.wf_writeSeq {m : Memory} (hm : m.wf) (bs : List Byte) : (m.writeSeq bs).wf := by
  refine List.pairwise_append.2 ⟨Memory.wf_cellsFrom bs 0, List.Pairwise.sublist List.filter_sublist hm, ?_⟩
  intro c hc d hd
  have h1 := Memory.mem_cellsFrom hc
  have h2 := of_decide_eq_true (List.mem_filter.1 hd).2
  omega

theorem Memory.mem_writeSeq {m : Memory} {bs : List Byte} {c : Host.Cell} (h : c ∈ m.writeSeq bs) :
    c.1 < bs.length ∨ c ∈ m := by
  rcases List.mem_append.1 h with h | h
  · have := Memory.mem_cellsFrom h
    exact .inl (by omega)
  · exact .inr (List.mem_filter.1 h).1

theorem Memory.read_append (m n : Memory) (i : Nat) :
    Memory.read (m ++ n) i = (Memory.read m i).or (Memory.read n i) := by
  induction m with
  | nil => simp
  | cons c m ih =>
    rw [List.cons_append, Memory.read_cons, Memory.read_cons]
    split <;> simp [ih]

theorem Memory.read_cellsFrom (bs : List Byte) (start i : Nat) :
    Memory.read (Memory.cellsFrom start bs) i = if start ≤ i then bs[i - start]? else none := by
  induction bs generalizing start with
  | nil => simp [Memory.cellsFrom]
  | cons b bs ih =>
    rw [Memory.cellsFrom, Memory.read_cons, ih]
    rcases Nat.lt_trichotomy start i with h | h | h
    · rw [if_neg (by simp only; omega), if_pos (by omega), if_pos (by omega),
        show i - start = i - (start + 1) + 1 by omega, List.getElem?_cons_succ]
    · subst h; simp
    · rw [if_neg (by simp only; omega), if_neg (by omega), if_neg (by omega)]

theorem Memory.read_filter_ge (m : Memory) (n i : Nat) :
    Memory.read (m.filter (fun c => decide (n ≤ c.1))) i = if n ≤ i then Memory.read m i else none := by
  induction m with
  | nil => simp
  | cons c m ih =>
    rw [List.filter_cons, Memory.read_cons]
    split <;> rename_i h <;> simp only [decide_eq_true_eq] at h
    · rw [Memory.read_cons, ih]
      by_cases hci : c.1 = i
      · rw [if_pos hci, if_pos hci, if_pos (by omega)]
      · rw [if_neg hci, if_neg hci]
    · rw [ih]
      by_cases hn : n ≤ i
      · rw [if_pos hn, if_pos hn, if_neg (by omega)]
      · rw [if_neg hn, if_neg hn]

/-- After a sequence write, the bytes written read back and every other index reads as before. -/
theorem Memory.read_writeSeq (m : Memory) (bs : List Byte) (i : Nat) :
    (m.writeSeq bs).read i = if i < bs.length then bs[i]? else m.read i := by
  rw [Memory.writeSeq, Memory.read_append, Memory.read_cellsFrom, Memory.read_filter_ge]
  by_cases h : i < bs.length
  · simp [h]
  · simp [h, Nat.le_of_not_lt h]

/-- A slice read answers a sequence exactly when each of its bytes is held, and then byte by byte. -/
theorem Memory.readFrom_eq_some_iff (m : Memory) (start n : Nat) (bs : List Byte) :
    m.readFrom start n = some bs ↔ bs.length = n ∧ ∀ k < n, m.read (start + k) = bs[k]? := by
  induction n generalizing start bs with
  | zero => cases bs <;> simp [Memory.readFrom]
  | succ n ih =>
    rw [Memory.readFrom]
    constructor
    · intro h
      split at h
      · next b bs' hb hbs =>
        obtain rfl := Option.some.inj h
        obtain ⟨hlen, hk⟩ := (ih _ _).1 hbs
        refine ⟨by simp [hlen], fun k hk' => ?_⟩
        cases k with
        | zero => simpa using hb
        | succ k =>
          rw [show start + (k + 1) = start + 1 + k by omega, hk k (by omega), List.getElem?_cons_succ]
      · simp at h
    · rintro ⟨hlen, hk⟩
      cases bs with
      | nil => simp at hlen
      | cons b bs =>
        have h0 : m.read start = some b := by simpa using hk 0 (by omega)
        have hrest : m.readFrom (start + 1) n = some bs := (ih _ _).2 ⟨by simpa using hlen, fun k hk' => by
          have := hk (k + 1) (by omega)
          rwa [List.getElem?_cons_succ, show start + (k + 1) = start + 1 + k by omega] at this⟩
        simp [h0, hrest]

theorem Memory.readSeq_eq_some_iff (m : Memory) (n : Nat) (bs : List Byte) :
    m.readSeq n = some bs ↔ bs.length = n ∧ ∀ k < n, m.read k = bs[k]? := by
  simpa [Memory.readSeq] using Memory.readFrom_eq_some_iff m 0 n bs

/-- A slice read answers nothing exactly when some byte of the slice holds no value. -/
theorem Memory.readSeq_eq_none_iff (m : Memory) (n : Nat) :
    m.readSeq n = none ↔ ∃ k < n, m.read k = none := by
  suffices h : ∀ start, m.readFrom start n = none ↔ ∃ k < n, m.read (start + k) = none by
    simpa [Memory.readSeq] using h 0
  induction n with
  | zero => simp [Memory.readFrom]
  | succ n ih =>
    intro start
    rw [Memory.readFrom]
    cases h0 : m.read start with
    | none => simpa using ⟨0, by omega, by simpa using h0⟩
    | some b =>
      have := ih (start + 1)
      cases hr : m.readFrom (start + 1) n with
      | none =>
        obtain ⟨k, hk, hnone⟩ := this.1 hr
        simpa using ⟨k + 1, by omega, by rw [← hnone]; congr 1; omega⟩
      | some bs =>
        simp only [reduceCtorEq, false_iff, not_exists, not_and]
        intro k hk hnone
        cases k with
        | zero => simp [h0] at hnone
        | succ k =>
          rw [this.2 ⟨k, by omega, by rw [← hnone]; congr 1; omega⟩] at hr
          simp at hr

/-- A sequence written is read back whole. -/
theorem Memory.readSeq_writeSeq (m : Memory) (bs : List Byte) : (m.writeSeq bs).readSeq bs.length = some bs := by
  rw [Memory.readSeq_eq_some_iff]
  exact ⟨rfl, fun k hk => by rw [Memory.read_writeSeq, if_pos hk]⟩

/-- The length of the input sequence is `ILEN`. -/
theorem State.input_length {s : State} {m : List Byte} (h : s.input = some m) : m.length = s.ilen.toNat :=
  ((Memory.readSeq_eq_some_iff _ _ _).1 h).1

/-- The bytes of the input sequence are those of `IBUF`. -/
theorem State.input_getElem? {s : State} {m : List Byte} (h : s.input = some m) {k : Nat} (hk : k < s.ilen.toNat) :
    s.ibuf.read k = m[k]? :=
  ((Memory.readSeq_eq_some_iff _ _ _).1 h).2 k hk

end Sys2Proof.Machine
end

