-- ==== Sys2Proof/Laws/State.lean ====
section
/-! SUPPORT. What each named update of the state does to each field. -/

namespace Sys2Proof.Machine

/-! ### `State.complete`, field by field -/

@[simp] theorem State.complete_lifecycle (s : State) (w : Word) (ol rl : Nat) : (s.complete w ol rl).lifecycle = s.lifecycle := rfl

@[simp] theorem State.complete_propKey (s : State) (w : Word) (ol rl : Nat) : (s.complete w ol rl).propKey = s.propKey := rfl

@[simp] theorem State.complete_dkey (s : State) (w : Word) (ol rl : Nat) : (s.complete w ol rl).dkey = s.dkey := rfl

@[simp] theorem State.complete_perm (s : State) (w : Word) (ol rl : Nat) : (s.complete w ol rl).perm = s.perm := rfl

@[simp] theorem State.complete_sidx (s : State) (w : Word) (ol rl : Nat) : (s.complete w ol rl).sidx = s.sidx := rfl

@[simp] theorem State.complete_ridx (s : State) (w : Word) (ol rl : Nat) : (s.complete w ol rl).ridx = s.ridx := rfl

@[simp] theorem State.complete_fault (s : State) (w : Word) (ol rl : Nat) : (s.complete w ol rl).fault = s.fault := rfl

@[simp] theorem State.complete_errcode (s : State) (w : Word) (ol rl : Nat) : (s.complete w ol rl).errcode = s.errcode := rfl

@[simp] theorem State.complete_finfo (s : State) (w : Word) (ol rl : Nat) : (s.complete w ol rl).finfo = s.finfo := rfl

@[simp] theorem State.complete_ilen (s : State) (w : Word) (ol rl : Nat) : (s.complete w ol rl).ilen = s.ilen := rfl

@[simp] theorem State.complete_olen (s : State) (w : Word) (ol rl : Nat) : (s.complete w ol rl).olen = BitVec.ofNat 16 ol := rfl

@[simp] theorem State.complete_rlen (s : State) (w : Word) (ol rl : Nat) : (s.complete w ol rl).rlen = BitVec.ofNat 16 rl := rfl

@[simp] theorem State.complete_result (s : State) (w : Word) (ol rl : Nat) : (s.complete w ol rl).result = w := rfl

@[simp] theorem State.complete_ibuf (s : State) (w : Word) (ol rl : Nat) : (s.complete w ol rl).ibuf = s.ibuf := rfl

@[simp] theorem State.complete_obuf (s : State) (w : Word) (ol rl : Nat) : (s.complete w ol rl).obuf = s.obuf := rfl

@[simp] theorem State.complete_rbuf (s : State) (w : Word) (ol rl : Nat) : (s.complete w ol rl).rbuf = s.rbuf := rfl

@[simp] theorem State.complete_maxBuf (s : State) (w : Word) (ol rl : Nat) : (s.complete w ol rl).maxBuf = s.maxBuf := rfl

@[simp] theorem State.complete_pending (s : State) (w : Word) (ol rl : Nat) : (s.complete w ol rl).pending = s.pending := rfl

@[simp] theorem State.complete_response (s : State) (w : Word) (ol rl : Nat) : (s.complete w ol rl).response = s.response := rfl

@[simp] theorem State.complete_draws (s : State) (w : Word) (ol rl : Nat) : (s.complete w ol rl).draws = s.draws := rfl


/-! ### `State.clearKey`, field by field -/

@[simp] theorem State.clearKey_lifecycle (s : State) : (s.clearKey).lifecycle = s.lifecycle := rfl

@[simp] theorem State.clearKey_propKey (s : State) : (s.clearKey).propKey = s.propKey := rfl

@[simp] theorem State.clearKey_dkey (s : State) : (s.clearKey).dkey = 0 := rfl

@[simp] theorem State.clearKey_perm (s : State) : (s.clearKey).perm = none := rfl

@[simp] theorem State.clearKey_sidx (s : State) : (s.clearKey).sidx = 0 := rfl

@[simp] theorem State.clearKey_ridx (s : State) : (s.clearKey).ridx = 0 := rfl

@[simp] theorem State.clearKey_fault (s : State) : (s.clearKey).fault = s.fault := rfl

@[simp] theorem State.clearKey_errcode (s : State) : (s.clearKey).errcode = s.errcode := rfl

@[simp] theorem State.clearKey_finfo (s : State) : (s.clearKey).finfo = s.finfo := rfl

@[simp] theorem State.clearKey_ilen (s : State) : (s.clearKey).ilen = s.ilen := rfl

@[simp] theorem State.clearKey_olen (s : State) : (s.clearKey).olen = s.olen := rfl

@[simp] theorem State.clearKey_rlen (s : State) : (s.clearKey).rlen = s.rlen := rfl

@[simp] theorem State.clearKey_result (s : State) : (s.clearKey).result = s.result := rfl

@[simp] theorem State.clearKey_ibuf (s : State) : (s.clearKey).ibuf = s.ibuf := rfl

@[simp] theorem State.clearKey_obuf (s : State) : (s.clearKey).obuf = s.obuf := rfl

@[simp] theorem State.clearKey_rbuf (s : State) : (s.clearKey).rbuf = s.rbuf := rfl

@[simp] theorem State.clearKey_maxBuf (s : State) : (s.clearKey).maxBuf = s.maxBuf := rfl

@[simp] theorem State.clearKey_pending (s : State) : (s.clearKey).pending = s.pending := rfl

@[simp] theorem State.clearKey_response (s : State) : (s.clearKey).response = s.response := rfl

@[simp] theorem State.clearKey_draws (s : State) : (s.clearKey).draws = s.draws := rfl


/-! ### `State.installKey`, field by field -/

@[simp] theorem State.installKey_lifecycle (s : State) (d : Byte) : (s.installKey d).lifecycle = s.lifecycle := rfl

@[simp] theorem State.installKey_propKey (s : State) (d : Byte) : (s.installKey d).propKey = s.propKey := rfl

@[simp] theorem State.installKey_dkey (s : State) (d : Byte) : (s.installKey d).dkey = d := rfl

@[simp] theorem State.installKey_perm (s : State) (d : Byte) : (s.installKey d).perm = some (keySchedule d) := rfl

@[simp] theorem State.installKey_sidx (s : State) (d : Byte) : (s.installKey d).sidx = 0 := rfl

@[simp] theorem State.installKey_ridx (s : State) (d : Byte) : (s.installKey d).ridx = 0 := rfl

@[simp] theorem State.installKey_fault (s : State) (d : Byte) : (s.installKey d).fault = s.fault := rfl

@[simp] theorem State.installKey_errcode (s : State) (d : Byte) : (s.installKey d).errcode = s.errcode := rfl

@[simp] theorem State.installKey_finfo (s : State) (d : Byte) : (s.installKey d).finfo = s.finfo := rfl

@[simp] theorem State.installKey_ilen (s : State) (d : Byte) : (s.installKey d).ilen = s.ilen := rfl

@[simp] theorem State.installKey_olen (s : State) (d : Byte) : (s.installKey d).olen = s.olen := rfl

@[simp] theorem State.installKey_rlen (s : State) (d : Byte) : (s.installKey d).rlen = s.rlen := rfl

@[simp] theorem State.installKey_result (s : State) (d : Byte) : (s.installKey d).result = s.result := rfl

@[simp] theorem State.installKey_ibuf (s : State) (d : Byte) : (s.installKey d).ibuf = s.ibuf := rfl

@[simp] theorem State.installKey_obuf (s : State) (d : Byte) : (s.installKey d).obuf = s.obuf := rfl

@[simp] theorem State.installKey_rbuf (s : State) (d : Byte) : (s.installKey d).rbuf = s.rbuf := rfl

@[simp] theorem State.installKey_maxBuf (s : State) (d : Byte) : (s.installKey d).maxBuf = s.maxBuf := rfl

@[simp] theorem State.installKey_pending (s : State) (d : Byte) : (s.installKey d).pending = s.pending := rfl

@[simp] theorem State.installKey_response (s : State) (d : Byte) : (s.installKey d).response = s.response := rfl

@[simp] theorem State.installKey_draws (s : State) (d : Byte) : (s.installKey d).draws = s.draws := rfl


/-! ### `State.respondDraw`, field by field -/

@[simp] theorem State.respondDraw_lifecycle (s : State) (w : Word) : (s.respondDraw w).lifecycle = s.lifecycle := rfl

@[simp] theorem State.respondDraw_propKey (s : State) (w : Word) : (s.respondDraw w).propKey = s.propKey := rfl

@[simp] theorem State.respondDraw_dkey (s : State) (w : Word) : (s.respondDraw w).dkey = s.dkey := rfl

@[simp] theorem State.respondDraw_perm (s : State) (w : Word) : (s.respondDraw w).perm = s.perm := rfl

@[simp] theorem State.respondDraw_sidx (s : State) (w : Word) : (s.respondDraw w).sidx = s.sidx := rfl

@[simp] theorem State.respondDraw_ridx (s : State) (w : Word) : (s.respondDraw w).ridx = s.ridx := rfl

@[simp] theorem State.respondDraw_fault (s : State) (w : Word) : (s.respondDraw w).fault = s.fault := rfl

@[simp] theorem State.respondDraw_errcode (s : State) (w : Word) : (s.respondDraw w).errcode = s.errcode := rfl

@[simp] theorem State.respondDraw_finfo (s : State) (w : Word) : (s.respondDraw w).finfo = s.finfo := rfl

@[simp] theorem State.respondDraw_ilen (s : State) (w : Word) : (s.respondDraw w).ilen = s.ilen := rfl

@[simp] theorem State.respondDraw_olen (s : State) (w : Word) : (s.respondDraw w).olen = s.olen := rfl

@[simp] theorem State.respondDraw_rlen (s : State) (w : Word) : (s.respondDraw w).rlen = s.rlen := rfl

@[simp] theorem State.respondDraw_result (s : State) (w : Word) : (s.respondDraw w).result = s.result := rfl

@[simp] theorem State.respondDraw_ibuf (s : State) (w : Word) : (s.respondDraw w).ibuf = s.ibuf := rfl

@[simp] theorem State.respondDraw_obuf (s : State) (w : Word) : (s.respondDraw w).obuf = s.obuf := rfl

@[simp] theorem State.respondDraw_rbuf (s : State) (w : Word) : (s.respondDraw w).rbuf = s.rbuf := rfl

@[simp] theorem State.respondDraw_maxBuf (s : State) (w : Word) : (s.respondDraw w).maxBuf = s.maxBuf := rfl

@[simp] theorem State.respondDraw_pending (s : State) (w : Word) : (s.respondDraw w).pending = s.pending := rfl

@[simp] theorem State.respondDraw_response (s : State) (w : Word) : (s.respondDraw w).response = some w := rfl

@[simp] theorem State.respondDraw_draws (s : State) (w : Word) : (s.respondDraw w).draws = s.draws + 1 := rfl


/-! ### `State.resetBlock`, field by field -/

@[simp] theorem State.resetBlock_lifecycle (s : State) : s.resetBlock.lifecycle = State.reset.lifecycle := rfl

@[simp] theorem State.resetBlock_propKey (s : State) : s.resetBlock.propKey = State.reset.propKey := rfl

@[simp] theorem State.resetBlock_dkey (s : State) : s.resetBlock.dkey = State.reset.dkey := rfl

@[simp] theorem State.resetBlock_perm (s : State) : s.resetBlock.perm = State.reset.perm := rfl

@[simp] theorem State.resetBlock_sidx (s : State) : s.resetBlock.sidx = State.reset.sidx := rfl

@[simp] theorem State.resetBlock_ridx (s : State) : s.resetBlock.ridx = State.reset.ridx := rfl

@[simp] theorem State.resetBlock_fault (s : State) : s.resetBlock.fault = State.reset.fault := rfl

@[simp] theorem State.resetBlock_errcode (s : State) : s.resetBlock.errcode = State.reset.errcode := rfl

@[simp] theorem State.resetBlock_finfo (s : State) : s.resetBlock.finfo = State.reset.finfo := rfl

@[simp] theorem State.resetBlock_ilen (s : State) : s.resetBlock.ilen = State.reset.ilen := rfl

@[simp] theorem State.resetBlock_olen (s : State) : s.resetBlock.olen = State.reset.olen := rfl

@[simp] theorem State.resetBlock_rlen (s : State) : s.resetBlock.rlen = State.reset.rlen := rfl

@[simp] theorem State.resetBlock_result (s : State) : s.resetBlock.result = State.reset.result := rfl

@[simp] theorem State.resetBlock_ibuf (s : State) : s.resetBlock.ibuf = State.reset.ibuf := rfl

@[simp] theorem State.resetBlock_obuf (s : State) : s.resetBlock.obuf = State.reset.obuf := rfl

@[simp] theorem State.resetBlock_rbuf (s : State) : s.resetBlock.rbuf = State.reset.rbuf := rfl

@[simp] theorem State.resetBlock_maxBuf (s : State) : s.resetBlock.maxBuf = s.maxBuf := rfl

@[simp] theorem State.resetBlock_pending (s : State) : s.resetBlock.pending = s.pending := rfl

@[simp] theorem State.resetBlock_response (s : State) : s.resetBlock.response = s.response := rfl

@[simp] theorem State.resetBlock_draws (s : State) : s.resetBlock.draws = s.draws := rfl


/-! ### `State.raise`, field by field -/

@[simp] theorem State.raise_lifecycle (s : State) (c : ErrCode) (w : Word) : (s.raise c w).lifecycle = s.lifecycle := by
  unfold State.raise; split <;> rfl

@[simp] theorem State.raise_propKey (s : State) (c : ErrCode) (w : Word) : (s.raise c w).propKey = s.propKey := by
  unfold State.raise; split <;> rfl

@[simp] theorem State.raise_dkey (s : State) (c : ErrCode) (w : Word) : (s.raise c w).dkey = s.dkey := by
  unfold State.raise; split <;> rfl

@[simp] theorem State.raise_perm (s : State) (c : ErrCode) (w : Word) : (s.raise c w).perm = s.perm := by
  unfold State.raise; split <;> rfl

@[simp] theorem State.raise_sidx (s : State) (c : ErrCode) (w : Word) : (s.raise c w).sidx = s.sidx := by
  unfold State.raise; split <;> rfl

@[simp] theorem State.raise_ridx (s : State) (c : ErrCode) (w : Word) : (s.raise c w).ridx = s.ridx := by
  unfold State.raise; split <;> rfl

@[simp] theorem State.raise_ilen (s : State) (c : ErrCode) (w : Word) : (s.raise c w).ilen = s.ilen := by
  unfold State.raise; split <;> rfl

@[simp] theorem State.raise_olen (s : State) (c : ErrCode) (w : Word) : (s.raise c w).olen = s.olen := by
  unfold State.raise; split <;> rfl

@[simp] theorem State.raise_rlen (s : State) (c : ErrCode) (w : Word) : (s.raise c w).rlen = s.rlen := by
  unfold State.raise; split <;> rfl

@[simp] theorem State.raise_result (s : State) (c : ErrCode) (w : Word) : (s.raise c w).result = s.result := by
  unfold State.raise; split <;> rfl

@[simp] theorem State.raise_ibuf (s : State) (c : ErrCode) (w : Word) : (s.raise c w).ibuf = s.ibuf := by
  unfold State.raise; split <;> rfl

@[simp] theorem State.raise_obuf (s : State) (c : ErrCode) (w : Word) : (s.raise c w).obuf = s.obuf := by
  unfold State.raise; split <;> rfl

@[simp] theorem State.raise_rbuf (s : State) (c : ErrCode) (w : Word) : (s.raise c w).rbuf = s.rbuf := by
  unfold State.raise; split <;> rfl

@[simp] theorem State.raise_maxBuf (s : State) (c : ErrCode) (w : Word) : (s.raise c w).maxBuf = s.maxBuf := by
  unfold State.raise; split <;> rfl

@[simp] theorem State.raise_pending (s : State) (c : ErrCode) (w : Word) : (s.raise c w).pending = s.pending := by
  unfold State.raise; split <;> rfl

@[simp] theorem State.raise_response (s : State) (c : ErrCode) (w : Word) : (s.raise c w).response = s.response := by
  unfold State.raise; split <;> rfl

@[simp] theorem State.raise_draws (s : State) (c : ErrCode) (w : Word) : (s.raise c w).draws = s.draws := by
  unfold State.raise; split <;> rfl

@[simp] theorem State.raise_fault (s : State) (c : ErrCode) (w : Word) : (s.raise c w).fault = true := by
  unfold State.raise; split <;> simp_all

theorem State.raise_errcode (s : State) (c : ErrCode) (w : Word) :
    (s.raise c w).errcode = if s.fault then s.errcode else c := by
  unfold State.raise; split <;> rfl

theorem State.raise_finfo (s : State) (c : ErrCode) (w : Word) :
    (s.raise c w).finfo = if s.fault then s.finfo else w := by
  unfold State.raise; split <;> rfl

/-- Only the first fault is recorded (R160). -/
theorem State.raise_of_fault {s : State} (h : s.fault = true) (c : ErrCode) (w : Word) : s.raise c w = s := by
  simp [State.raise, h]

/-- The first fault is recorded whole (R160). -/
theorem State.raise_of_no_fault {s : State} (h : s.fault = false) (c : ErrCode) (w : Word) :
    s.raise c w = { s with fault := true, errcode := c, finfo := w } := by
  simp [State.raise, h]

end Sys2Proof.Machine
end

