-- ==== Sys2Proof/Laws/Ops.lean ====
section
/-! SUPPORT. For each shared operation, one lemma that says everything it can do. -/

namespace Sys2Proof.Machine

/-! ### Fields of the result word -/

@[simp] theorem resultWord_rbyte (b : Byte) (f r : Bool) : (resultWord b f r).extractLsb' 0 8 = b := by
  cases f <;> cases r <;> simp only [resultWord, bitWord, Byte.toWord] <;> ext i hi <;>
    simp [BitVec.getLsbD_setWidth] <;> interval_cases i <;> simp

@[simp] theorem resultWord_rflag (b : Byte) (f r : Bool) : (resultWord b f r)[8] = f := by
  cases f <;> cases r <;> simp [resultWord, bitWord, Byte.toWord]

@[simp] theorem resultWord_remv (b : Byte) (f r : Bool) : (resultWord b f r)[9] = r := by
  cases f <;> cases r <;> simp [resultWord, bitWord, Byte.toWord]

/-- Bits [31:10] of a result word are 0 (R32). -/
theorem resultWord_reserved (b : Byte) (f r : Bool) : resultWord b f r >>> 10 = 0 := by
  cases f <;> cases r <;> simp only [resultWord, bitWord, Byte.toWord] <;> ext i hi <;>
    simp [BitVec.getLsbD_setWidth] <;> interval_cases i <;> simp

/-! ### Operations on the state -/

/-- A command that reads its input either runs on it or raises `UNINIT_INPUT`. -/
theorem withInput_cases (i : Instr) (s : State) (run : List Byte → State) :
    (∃ m, s.input = some m ∧ withInput i s run = run m) ∨
      (s.input = none ∧ withInput i s run = s.raise .uninitInput (encode i)) := by
  unfold withInput
  cases h : s.input with
  | some m => exact .inl ⟨m, rfl, rfl⟩
  | none => exact .inr ⟨rfl, rfl⟩

/-- `UpdateKey` clears or derives, by the packet's length. -/
theorem State.updateKey_cases (s : State) (p : List Byte) :
    (p.length < 12 ∧ s.updateKey p = s.clearKey) ∨
      (12 ≤ p.length ∧ s.updateKey p = s.installKey (deriveKeyByte p)) := by
  unfold State.updateKey
  by_cases h : p.length < 12
  · exact .inl ⟨h, if_pos h⟩
  · exact .inr ⟨by omega, if_neg h⟩

/-- Issuing a command drops it, refuses its word, or runs it. -/
theorem issueCommand_cases (s : State) (w : Word) :
    (s.fault = true ∧ issueCommand s w = .next s) ∨
      (s.fault = false ∧ ∃ r, decode w = .error r ∧ issueCommand s w = .next (s.raise .illegalCmd w)) ∨
      (s.fault = false ∧ ∃ i, decode w = .ok i ∧ issueCommand s w = exec i s) := by
  unfold issueCommand
  cases hf : s.fault with
  | true => exact .inl ⟨rfl, rfl⟩
  | false =>
    cases hd : decode w with
    | error r => exact .inr (.inl ⟨rfl, r, rfl, rfl⟩)
    | ok i => exact .inr (.inr ⟨rfl, i, rfl, rfl⟩)

/-- A host read answers the word held, a drawn byte, or faults. -/
theorem hostRead_cases (s : State) (bytes : Nat) (off : Word) :
    (∃ loc w, locate s.maxBuf bytes off = some loc ∧ s.held loc = some w ∧
        hostRead s bytes off = { s with response := some w }) ∨
      (∃ loc, locate s.maxBuf bytes off = some loc ∧ s.held loc = none ∧
        hostRead s bytes off = s.respondDraw (Byte.toWord (s.draw 0))) ∨
      (locate s.maxBuf bytes off = none ∧
        hostRead s bytes off = (s.raise .illegalAccess off).respondDraw (Config.drawWord s.draws)) := by
  unfold hostRead
  cases hl : locate s.maxBuf bytes off with
  | none => exact .inr (.inr ⟨rfl, rfl⟩)
  | some loc =>
    cases hh : s.held loc with
    | some w => exact .inl ⟨loc, w, rfl, hh, by simp [hh]⟩
    | none => exact .inr (.inl ⟨loc, rfl, hh, by simp [hh]⟩)

/-- A host write issues a command, writes `CTRL`, `ILEN` or an input byte, or faults. -/
theorem hostWrite_cases (s : State) (bytes : Nat) (off w : Word) :
    (locate s.maxBuf bytes off = some .cmd ∧ hostWrite s bytes off w = issueCommand s w) ∨
      (locate s.maxBuf bytes off = some .ctrl ∧ hostWrite s bytes off w = .next (writeCtrl s w)) ∨
      (locate s.maxBuf bytes off = some .ilen ∧ hostWrite s bytes off w = .next (writeIlen s w)) ∨
      (∃ i, locate s.maxBuf bytes off = some (.ibuf i) ∧
        hostWrite s bytes off w = .next { s with ibuf := s.ibuf.write i (w.setWidth 8) }) ∨
      (hostWrite s bytes off w = .next (s.raise .illegalAccess off)) := by
  unfold hostWrite
  split <;> simp_all

/-- A write of `CTRL` faults, resets or does nothing. -/
theorem writeCtrl_cases (s : State) (w : Word) :
    (w >>> 1 ≠ 0 ∧ writeCtrl s w = s.raise .illegalAccess 0x00008) ∨
      (w >>> 1 = 0 ∧ w.getLsbD 0 = true ∧ writeCtrl s w = s.resetBlock) ∨
      (w >>> 1 = 0 ∧ w.getLsbD 0 = false ∧ writeCtrl s w = s) := by
  unfold writeCtrl
  by_cases h : w >>> 1 = 0
  · rw [if_neg (not_not.2 h)]
    cases w.getLsbD 0
    · exact .inr (.inr ⟨h, rfl, rfl⟩)
    · exact .inr (.inl ⟨h, rfl, rfl⟩)
  · exact .inl ⟨h, if_pos h⟩

/-- A write of `ILEN` faults or sets it. -/
theorem writeIlen_cases (s : State) (w : Word) :
    ((2 ^ 16 ≤ w.toNat ∨ s.maxBuf < w.toNat) ∧ writeIlen s w = s.raise .ilenRange w) ∨
      (w.toNat < 2 ^ 16 ∧ w.toNat ≤ s.maxBuf ∧ writeIlen s w = { s with ilen := w.setWidth 16 }) := by
  unfold writeIlen
  by_cases h : w.toNat ≥ 2 ^ 16 ∨ w.toNat > s.maxBuf
  · exact .inl ⟨h, if_pos h⟩
  · exact .inr ⟨by omega, by omega, if_neg h⟩

/-- An input index the map reaches is one of the buffer's (R33). -/
theorem bufferLocation_ibuf {maxBuf off i : Nat} (h : bufferLocation maxBuf off = some (.ibuf i)) :
    i < maxBuf ∧ off = 0x10000 + 4 * i + off % 4 := by
  unfold bufferLocation at h
  split at h <;> simp only [Option.some.injEq, reduceCtorEq, Location.ibuf.injEq] at h
  next i' hw =>
    subst h
    unfold windowIndex at hw
    split at hw
    · next hr => obtain rfl := Option.some.inj hw; omega
    · simp at hw

theorem locate_ibuf {maxBuf bytes i : Nat} {off : Word} (h : locate maxBuf bytes off = some (.ibuf i)) :
    i < maxBuf ∧ off.toNat = 0x10000 + 4 * i := by
  unfold locate at h
  split at h
  · next ha =>
    unfold mappedLocation at h
    split at h <;> try simp at h
    split at h
    · simp at h
    · have := bufferLocation_ibuf h
      omega
  · simp at h

/-! ### Frames -/

@[simp] theorem length_xorBytes (m : List Byte) (x : Byte) : (xorBytes m x).length = m.length := by
  simp [xorBytes]

theorem getElem?_xorBytes (m : List Byte) (x : Byte) (i : Nat) :
    (xorBytes m x)[i]? = m[i]?.map (· ^^^ x) := by
  simp [xorBytes]

/-- The declared length of a frame (R85). -/
theorem frameLength_eq_some_iff (m : List Byte) (L : Nat) :
    frameLength m = some L ↔ ∃ b, m[1]? = some b ∧ L = b.toNat + 2 := by
  match m with
  | [] => simp [frameLength]
  | [_] => simp [frameLength]
  | _ :: b :: _ => simp [frameLength, eq_comm]

/-- A declared length lies in 2..257 (R9, R85). -/
theorem frameLength_bounds {m : List Byte} {L : Nat} (h : frameLength m = some L) : 2 ≤ L ∧ L ≤ 257 := by
  obtain ⟨b, -, rfl⟩ := (frameLength_eq_some_iff m L).1 h
  have := b.isLt
  omega

/-- The checksum exists exactly under its precondition (R132). -/
theorem checksum_eq_some_iff (m : List Byte) (c : Byte) :
    checksum m = some c ↔ ∃ L, frameLength m = some L ∧ L ≤ m.length ∧ c = byteSum (m.take (L - 1)) := by
  unfold checksum
  cases frameLength m with
  | none => simp
  | some L =>
    by_cases h : m.length < L
    · simp [h, Nat.not_le.2 h]
    · simp [h, Nat.le_of_not_lt h, eq_comm]

/-- When a buffer validates (R134). -/
theorem validateChecksum_iff (m : List Byte) :
    validateChecksum m = true ↔
      ∃ L, frameLength m = some L ∧ L ≤ m.length ∧ m[L - 1]? = some (byteSum (m.take (L - 1))) := by
  unfold validateChecksum checksum
  cases hL : frameLength m with
  | none => simp
  | some L =>
    by_cases h : m.length < L
    · simp [h, Nat.not_le.2 h]
    · simp [h, Nat.le_of_not_lt h]

/-- What one candidate key gives (R136). -/
theorem decodeWith_eq_some_iff (m : List Byte) (x : Byte) (d : DecodedFrame) :
    decodeWith m x = some d ↔
      validateChecksum (xorBytes m x) = true ∧ ∃ L, frameLength (xorBytes m x) = some L ∧
        d = ⟨(xorBytes m x).take L, x, if L < m.length then some (m.drop L) else none⟩ := by
  unfold decodeWith
  cases validateChecksum (xorBytes m x) with
  | false => simp
  | true =>
    cases frameLength (xorBytes m x) with
    | none => simp
    | some L => simp [eq_comm]

/-- A decode comes from the first candidate, or from the second where the first fails (R136, R139, R144). -/
theorem decodeFrame_cases {m : List Byte} {d : DecodedFrame} (h : decodeFrame m = some d) :
    4 ≤ m.length ∧ ∃ x, m[2]? = some x ∧
      (decodeWith m x = some d ∨ (decodeWith m x = none ∧ decodeWith m (x ^^^ 1) = some d)) := by
  unfold decodeFrame at h
  by_cases hl : m.length < Config.decodeMin
  · rw [if_pos hl] at h
    simp at h
  rw [if_neg hl] at h
  split at h
  · next x hx =>
    refine ⟨by simpa using hl, x, hx, ?_⟩
    split at h
    · next d' hd => exact .inl (hd.trans h)
    · next hd => exact .inr ⟨hd, h⟩
  · simp at h

end Sys2Proof.Machine
end

