-- ==== Sys2Proof/Laws/Bus.lean ====
section
/-! SUPPORT. The register map offset by offset, and the step by its oldest event. -/

namespace Sys2Proof.Machine

/-! ### The step -/

/-- A step takes the oldest pending event. -/
theorem step_of_pending {s : State} {e : HostEvent} {rest : List HostEvent} (h : s.pending = e :: rest) :
    step s = hostEvent { s with pending := rest } e := by
  simp [step, takeEvent, h]

/-- With no event pending the block waits. -/
theorem step_of_idle {s : State} (h : s.pending = []) : step s = .next s := by
  simp [step, takeEvent, h]

/-! ### The register map (R33) -/

@[simp] theorem locate_cmd (n : Nat) : locate n 4 0#32 = some .cmd := by simp [locate, mappedLocation]
@[simp] theorem locate_status (n : Nat) : locate n 4 4#32 = some .status := by simp [locate, mappedLocation]
@[simp] theorem locate_ctrl (n : Nat) : locate n 4 8#32 = some .ctrl := by simp [locate, mappedLocation]
@[simp] theorem locate_ilen (n : Nat) : locate n 4 12#32 = some .ilen := by simp [locate, mappedLocation]
@[simp] theorem locate_olen (n : Nat) : locate n 4 16#32 = some .olen := by simp [locate, mappedLocation]
@[simp] theorem locate_rlen (n : Nat) : locate n 4 20#32 = some .rlen := by simp [locate, mappedLocation]
@[simp] theorem locate_result (n : Nat) : locate n 4 24#32 = some .result := by simp [locate, mappedLocation]
@[simp] theorem locate_kstat (n : Nat) : locate n 4 28#32 = some .kstat := by simp [locate, mappedLocation]
@[simp] theorem locate_finfo (n : Nat) : locate n 4 32#32 = some .finfo := by simp [locate, mappedLocation]

/-- An access that is not a word access on a word-aligned offset reaches nothing (R61). -/
theorem locate_eq_none {n bytes : Nat} {off : Word} (h : bytes ≠ 4 ∨ off.toNat % 4 ≠ 0) : locate n bytes off = none :=
  if_neg (by omega)

theorem windowIndex_eq_some_iff {start n off i : Nat} :
    windowIndex start n off = some i ↔ start ≤ off ∧ off < start + 4 * n ∧ i = (off - start) / 4 := by
  unfold windowIndex
  split <;> simp_all [eq_comm]

theorem windowIndex_eq_none_iff {start n off : Nat} :
    windowIndex start n off = none ↔ ¬(start ≤ off ∧ off < start + 4 * n) := by
  unfold windowIndex
  split <;> simp_all

/-- Above the named registers, the map is its four windows (R33). -/
theorem mappedLocation_of_high (maxBuf : Nat) {off : Nat} (h : 0x20 < off) :
    mappedLocation maxBuf off =
      match windowIndex 0x00400 Config.permSize off with
      | some i => some (.permwin (BitVec.ofNat 8 i))
      | none => bufferLocation maxBuf off := by
  unfold mappedLocation
  split <;> first | omega | rfl

/-- `PERMWIN[i]` (R33). -/
theorem locate_permwin (n : Nat) (i : Byte) : locate n 4 (BitVec.ofNat 32 (0x00400 + 4 * i.toNat)) = some (.permwin i) := by
  have hi := i.isLt
  have hoff : (BitVec.ofNat 32 (0x00400 + 4 * i.toNat)).toNat = 0x00400 + 4 * i.toNat := by
    rw [BitVec.toNat_ofNat]; omega
  rw [locate, if_pos ⟨rfl, by omega⟩, hoff, mappedLocation_of_high _ (by omega),
    windowIndex_eq_some_iff.2 ⟨by omega, by simp only [Config.permSize]; omega, rfl⟩]
  simp

/-- The buffer windows byte by byte (R33): for a legal `MAX_BUF` they do not overlap. -/
theorem locate_buffer {n i : Nat} (hn : n ≤ 16384) (hi : i < n) :
    locate n 4 (BitVec.ofNat 32 (0x10000 + 4 * i)) = some (.ibuf i) ∧
      locate n 4 (BitVec.ofNat 32 (0x20000 + 4 * i)) = some (.obuf i) ∧
      locate n 4 (BitVec.ofNat 32 (0x30000 + 4 * i)) = some (.rbuf i) := by
  have hoff : ∀ base ≤ 0x30000, (BitVec.ofNat 32 (base + 4 * i)).toNat = base + 4 * i := by
    intro base hb; rw [BitVec.toNat_ofNat]; omega
  have hperm : ∀ base, 0x10000 ≤ base → windowIndex 0x00400 Config.permSize (base + 4 * i) = none := by
    intro base hb; exact windowIndex_eq_none_iff.2 (by simp only [Config.permSize]; omega)
  have hin : ∀ base, windowIndex base n (base + 4 * i) = some i := fun base =>
    windowIndex_eq_some_iff.2 (by omega)
  have hout : ∀ start base, start + 0x10000 ≤ base → windowIndex start n (base + 4 * i) = none := fun start base hb =>
    windowIndex_eq_none_iff.2 (by omega)
  have hloc : ∀ base, 0x10000 ≤ base → base ≤ 0x30000 → base % 4 = 0 →
      locate n 4 (BitVec.ofNat 32 (base + 4 * i)) = bufferLocation n (base + 4 * i) := by
    intro base h1 h2 h3
    rw [locate, hoff base h2, if_pos ⟨rfl, by omega⟩, mappedLocation_of_high _ (by omega), hperm base h1]
  refine ⟨?_, ?_, ?_⟩
  · rw [hloc 0x10000 (by omega) (by omega) rfl, bufferLocation, hin]
  · rw [hloc 0x20000 (by omega) (by omega) rfl, bufferLocation, hin, hout 0x10000 0x20000 (by omega)]
  · rw [hloc 0x30000 (by omega) (by omega) rfl, bufferLocation, hin, hout 0x10000 0x30000 (by omega),
      hout 0x20000 0x30000 (by omega)]

/-- A location of a buffer lies in its window (R33). -/
theorem bufferLocation_eq_some {n off : Nat} {loc : Location} (h : bufferLocation n off = some loc) :
    (loc = .ibuf ((off - 0x10000) / 4) ∧ 0x10000 ≤ off ∧ off < 0x10000 + 4 * n) ∨
      (loc = .obuf ((off - 0x20000) / 4) ∧ 0x20000 ≤ off ∧ off < 0x20000 + 4 * n) ∨
      (loc = .rbuf ((off - 0x30000) / 4) ∧ 0x30000 ≤ off ∧ off < 0x30000 + 4 * n) := by
  unfold bufferLocation at h
  split at h <;> simp only [Option.some.injEq, reduceCtorEq] at h <;> subst h
  · next h1 => obtain ⟨a, b, rfl⟩ := windowIndex_eq_some_iff.1 h1; exact .inl ⟨rfl, a, b⟩
  · next h1 => obtain ⟨a, b, rfl⟩ := windowIndex_eq_some_iff.1 h1; exact .inr (.inl ⟨rfl, a, b⟩)
  · next h1 => obtain ⟨a, b, rfl⟩ := windowIndex_eq_some_iff.1 h1; exact .inr (.inr ⟨rfl, a, b⟩)

/-- The offset of a location (R33). -/
def Location.offset : Location → Nat
  | .cmd => 0x00000
  | .status => 0x00004
  | .ctrl => 0x00008
  | .ilen => 0x0000C
  | .olen => 0x00010
  | .rlen => 0x00014
  | .result => 0x00018
  | .kstat => 0x0001C
  | .finfo => 0x00020
  | .permwin i => 0x00400 + 4 * i.toNat
  | .ibuf i => 0x10000 + 4 * i
  | .obuf i => 0x20000 + 4 * i
  | .rbuf i => 0x30000 + 4 * i

/-- An access reaches a location by a word access at its offset only (R33, R61). -/
theorem offset_of_locate {n bytes : Nat} {off : Word} {loc : Location} (h : locate n bytes off = some loc) :
    bytes = 4 ∧ off.toNat = loc.offset := by
  unfold locate at h
  split at h
  · next ha =>
    refine ⟨ha.1, ?_⟩
    by_cases hlow : off.toNat ≤ 0x20
    · generalize off.toNat = k at *
      have : k = 0 ∨ k = 4 ∨ k = 8 ∨ k = 12 ∨ k = 16 ∨ k = 20 ∨ k = 24 ∨ k = 28 ∨ k = 32 := by omega
      rcases this with rfl | rfl | rfl | rfl | rfl | rfl | rfl | rfl | rfl <;>
        obtain rfl := Option.some.inj h <;> rfl
    · rw [mappedLocation_of_high n (by omega)] at h
      split at h
      · next i hw =>
        obtain ⟨h1, h2, rfl⟩ := windowIndex_eq_some_iff.1 hw
        simp only [Config.permSize] at h2
        obtain rfl := Option.some.inj h
        simp only [Location.offset, BitVec.toNat_ofNat]
        omega
      · rcases bufferLocation_eq_some h with ⟨rfl, h1, -⟩ | ⟨rfl, h1, -⟩ | ⟨rfl, h1, -⟩ <;>
          simp only [Location.offset] <;> omega
  · simp at h

/-- An offset above the named registers, outside the table's window and outside the buffers', is unmapped (R33). -/
theorem bufferLocation_eq_none {n off : Nat} (h1 : ¬(0x10000 ≤ off ∧ off < 0x10000 + 4 * n))
    (h2 : ¬(0x20000 ≤ off ∧ off < 0x20000 + 4 * n)) (h3 : ¬(0x30000 ≤ off ∧ off < 0x30000 + 4 * n)) :
    bufferLocation n off = none := by
  simp only [bufferLocation, windowIndex_eq_none_iff.2 h1, windowIndex_eq_none_iff.2 h2, windowIndex_eq_none_iff.2 h3]

/-- What the map says of a word-aligned offset (R33). -/
theorem locate_cases (n : Nat) (off : Word) (h : off.toNat % 4 = 0) :
    (∃ loc, locate n 4 off = some loc ∧ loc ∈ [Location.cmd, .status, .ctrl, .ilen, .olen, .rlen, .result, .kstat, .finfo] ∧
        off.toNat ≤ 0x20 ∧ (loc = .cmd ↔ off = 0#32) ∧ (loc = .ctrl ↔ off = 8#32) ∧ (loc = .ilen ↔ off = 12#32)) ∨
      (locate n 4 off = some (.permwin (BitVec.ofNat 8 ((off.toNat - 0x400) / 4))) ∧ 0x400 ≤ off.toNat ∧ off.toNat ≤ 0x7FC) ∨
      (0x7FC < off.toNat ∧ locate n 4 off = bufferLocation n off.toNat) ∨
      (0x20 < off.toNat ∧ off.toNat < 0x400 ∧ locate n 4 off = none) := by
  by_cases hlow : off.toNat ≤ 0x20
  · left
    have hoff : off = BitVec.ofNat 32 off.toNat := by simp
    generalize off.toNat = k at *
    have : k = 0 ∨ k = 4 ∨ k = 8 ∨ k = 12 ∨ k = 16 ∨ k = 20 ∨ k = 24 ∨ k = 28 ∨ k = 32 := by omega
    rcases this with rfl | rfl | rfl | rfl | rfl | rfl | rfl | rfl | rfl <;> subst hoff <;> simp
  · right
    rw [locate, if_pos ⟨rfl, h⟩, mappedLocation_of_high n (by omega)]
    cases hw : windowIndex 0x00400 Config.permSize off.toNat with
    | some i =>
      obtain ⟨h1, h2, rfl⟩ := windowIndex_eq_some_iff.1 hw
      exact .inl ⟨rfl, h1, by simp only [Config.permSize] at h2; omega⟩
    | none =>
      have hn := windowIndex_eq_none_iff.1 hw
      simp only [Config.permSize] at hn
      by_cases hhigh : 0x7FC < off.toNat
      · exact .inr (.inl ⟨hhigh, rfl⟩)
      · exact .inr (.inr ⟨by omega, by omega, bufferLocation_eq_none (by omega) (by omega) (by omega)⟩)

end Sys2Proof.Machine
end

