-- ==== Sys2Proof/Laws/PerInstr.lean ====
section
/-! SUPPORT. A statement about every command as syntax, made per command: the word it is encoded as has legal fields
(spec/30_encoding.md R81, R83). -/

namespace Sys2Proof.Laws

/-- The encoded word's fields are the command's, and are legal (R81, R83). -/
def Encoded.Statement (i : Instr) : Prop :=
  fieldsOf (encode i) = i.fields ∧ (fieldsOf (encode i)).wellFormed = true

theorem Encoded.ksGenprop : Encoded.Statement .ksGenprop := by unfold Encoded.Statement; decide
theorem Encoded.ksAccept : Encoded.Statement .ksAccept := by unfold Encoded.Statement; decide
theorem Encoded.ksUpdate : Encoded.Statement .ksUpdate := by unfold Encoded.Statement; decide
theorem Encoded.ksRkey (inc : Bool) : Encoded.Statement (.ksRkey inc) := by
  unfold Encoded.Statement; cases inc <;> decide
theorem Encoded.ksSkey (inc : Bool) : Encoded.Statement (.ksSkey inc) := by
  unfold Encoded.Statement; cases inc <;> decide
theorem Encoded.frXor (imm8 : Byte) : Encoded.Statement (.frXor imm8) := by
  unfold Encoded.Statement; revert imm8; decide +kernel
theorem Encoded.frCsum : Encoded.Statement .frCsum := by unfold Encoded.Statement; decide
theorem Encoded.frVcsum : Encoded.Statement .frVcsum := by unfold Encoded.Statement; decide
theorem Encoded.frDecode : Encoded.Statement .frDecode := by unfold Encoded.Statement; decide

end Sys2Proof.Laws
end

