-- ==== Sys2Proof/Laws/Step.lean ====
section
/-! SUPPORT. Everything a command, and an event from outside, can do: one inversion lemma each. -/

namespace Sys2Proof.Machine

/-- What a command that answers `t` did: it raised a fault, or its own rule ran to the end. -/
theorem exec_cases {i : Instr} {s t : State}
    (h : exec i s = .next t) :
    (∃ c, c ≠ .none ∧ t = s.raise c (encode i)) ∨
    (i = .ksGenprop ∧ s.lifecycle ≠ .accepted ∧
      t = ({ s with propKey := s.proposal, obuf := s.obuf.writeSeq s.proposal.toList, lifecycle := .proposed,
                    draws := s.draws + 8 } : State).complete 0 8 0) ∨
    (i = .ksAccept ∧ s.lifecycle = .proposed ∧
      t = ({ s.installKey (deriveKeyByte (List.replicate 4 0 ++ s.propKey.toList)) with
             lifecycle := .accepted } : State).complete 0 0 0) ∨
    (i = .ksUpdate ∧ ∃ m, s.input = some m ∧
      ((m.length < 12 ∧ t = s.clearKey.complete 0 0 0) ∨
        (12 ≤ m.length ∧ t = (s.installKey (deriveKeyByte m)).complete 0 0 0))) ∨
    (∃ c, i = .ksRkey c ∧
      t = ({ s with ridx := s.advanced s.ridx c } : State).complete
        (resultWord (s.keyLookup s.ridx) false false) 0 0) ∨
    (∃ c, i = .ksSkey c ∧
      t = ({ s with sidx := s.advanced s.sidx c } : State).complete
        (resultWord (s.keyLookup s.sidx) false false) 0 0) ∨
    (∃ x m, i = .frXor x ∧ s.input = some m ∧
      t = ({ s with obuf := s.obuf.writeSeq (xorBytes m x) } : State).complete 0 m.length 0) ∨
    (∃ m c, i = .frCsum ∧ s.input = some m ∧ checksum m = some c ∧
      t = s.complete (resultWord c false false) 0 0) ∨
    (∃ m, i = .frVcsum ∧ s.input = some m ∧ t = s.complete (resultWord 0 (validateChecksum m) false) 0 0) ∨
    (∃ m, i = .frDecode ∧ s.input = some m ∧ t = s.finishDecode (decodeFrame m)) := by
  cases i <;> simp only [exec, execKsGenprop, execKsAccept, execKsUpdate, execKsRkey, execKsSkey, execFrXor,
    execFrCsum, execFrVcsum, execFrDecode] at h
  case ksGenprop =>
    cases hl : s.lifecycle <;> rw [hl] at h <;> obtain rfl := Host.Outcome.next.inj h
    · exact .inr (.inl ⟨rfl, by simp, rfl⟩)
    · exact .inr (.inl ⟨rfl, by simp, rfl⟩)
    · exact .inl ⟨_, by simp, rfl⟩
  case ksAccept =>
    cases hl : s.lifecycle <;> rw [hl] at h <;> obtain rfl := Host.Outcome.next.inj h
    · exact .inl ⟨_, by simp, rfl⟩
    · refine .inr (.inr (.inl ⟨rfl, rfl, ?_⟩))
      rw [State.updateKey, if_neg (by simp)]
    · exact .inl ⟨_, by simp, rfl⟩
  all_goals obtain rfl := Host.Outcome.next.inj h
  case ksUpdate =>
    rcases withInput_cases .ksUpdate s fun packet => (s.updateKey packet).complete 0 0 0 with ⟨m, hm, h⟩ | ⟨-, h⟩
    · refine .inr (.inr (.inr (.inl ⟨rfl, m, hm, ?_⟩)))
      rcases s.updateKey_cases m with ⟨hl, hu⟩ | ⟨hl, hu⟩
      · exact .inl ⟨hl, by rw [h, hu]⟩
      · exact .inr ⟨hl, by rw [h, hu]⟩
    · exact .inl ⟨_, by simp, h⟩
  case ksRkey c => simp
  case ksSkey c => simp
  case frXor x =>
    rcases withInput_cases (.frXor x) s fun m => s.finishXor m x with ⟨m, hm, h⟩ | ⟨-, h⟩
    · rw [h, State.finishXor]; exact .inr (.inr (.inr (.inr (.inr (.inr (.inl ⟨x, m, rfl, hm, rfl⟩))))))
    · exact .inl ⟨_, by simp, h⟩
  case frCsum =>
    rcases withInput_cases .frCsum s fun m => s.finishCsum m with ⟨m, hm, h⟩ | ⟨-, h⟩
    · rw [h, State.finishCsum]
      cases hc : checksum m with
      | none => exact .inl ⟨_, by simp, rfl⟩
      | some c => simp [hm, hc]
    · exact .inl ⟨_, by simp, h⟩
  case frVcsum =>
    rcases withInput_cases .frVcsum s fun m => s.complete (resultWord 0 (validateChecksum m) false) 0 0 with ⟨m, hm, h⟩ | ⟨-, h⟩
    · rw [h]; exact .inr (.inr (.inr (.inr (.inr (.inr (.inr (.inr (.inl ⟨m, rfl, hm, rfl⟩))))))))
    · exact .inl ⟨_, by simp, h⟩
  case frDecode =>
    rcases withInput_cases .frDecode s fun m => s.finishDecode (decodeFrame m) with ⟨m, hm, h⟩ | ⟨-, h⟩
    · simp [h, hm]
    · exact .inl ⟨_, by simp, h⟩

/-- What FR.DECODE writes for each result of the pipeline (R137). -/
theorem State.finishDecode_cases (s : State) (o : Option DecodedFrame) :
    (o = none ∧ s.finishDecode o = s.complete 0 0 0) ∨
    (∃ f k, o = some ⟨f, k, none⟩ ∧
      s.finishDecode o =
        ({ s with obuf := s.obuf.writeSeq f } : State).complete (resultWord k true false) f.length 0) ∨
    (∃ f k r, o = some ⟨f, k, some r⟩ ∧
      s.finishDecode o =
        ({ s with obuf := s.obuf.writeSeq f, rbuf := s.rbuf.writeSeq r } : State).complete
          (resultWord k true true) f.length r.length) := by
  rcases o with _ | ⟨f, k, _ | r⟩
  · exact .inl ⟨rfl, rfl⟩
  · exact .inr (.inl ⟨f, k, rfl, rfl⟩)
  · exact .inr (.inr ⟨f, k, r, rfl, rfl⟩)

/-- What an event that answers `t` did (R180, R61 to R63, R89). -/
theorem hostEvent_cases {s t : State} {e : HostEvent} (h : hostEvent s e = .next t) :
    (e = .resetInput ∧ t = s.resetBlock) ∨
    (∃ b o, e = .read b o ∧ t = hostRead s b o) ∨
    (∃ b o w, e = .write b o w ∧ locate s.maxBuf b o = some .cmd ∧
      ((s.fault = true ∧ t = s) ∨
        (s.fault = false ∧ (∃ r, decode w = .error r) ∧ t = s.raise .illegalCmd w) ∨
        (s.fault = false ∧ ∃ i, decode w = .ok i ∧ exec i s = .next t))) ∨
    (∃ b o w, e = .write b o w ∧ locate s.maxBuf b o = some .ctrl ∧ t = writeCtrl s w) ∨
    (∃ b o w, e = .write b o w ∧ locate s.maxBuf b o = some .ilen ∧ t = writeIlen s w) ∨
    (∃ b o w i, e = .write b o w ∧ locate s.maxBuf b o = some (.ibuf i) ∧
      t = { s with ibuf := s.ibuf.write i (w.setWidth 8) }) ∨
    (∃ b o w, e = .write b o w ∧ t = s.raise .illegalAccess o) := by
  cases e with
  | resetInput => exact .inl ⟨rfl, (Host.Outcome.next.inj h).symm⟩
  | read b o => exact .inr (.inl ⟨b, o, rfl, (Host.Outcome.next.inj h).symm⟩)
  | write b o w =>
    right; right
    simp only [hostEvent] at h
    rcases hostWrite_cases s b o w with ⟨hl, h'⟩ | ⟨hl, h'⟩ | ⟨hl, h'⟩ | ⟨i, hl, h'⟩ | h'
    · left
      refine ⟨b, o, w, rfl, hl, ?_⟩
      rcases issueCommand_cases s w with ⟨hf, hi⟩ | ⟨hf, r, hr, hi⟩ | ⟨hf, i, hd, hi⟩
      · exact .inl ⟨hf, (Host.Outcome.next.inj (hi.symm.trans (h'.symm.trans h))).symm⟩
      · exact .inr (.inl ⟨hf, ⟨r, hr⟩, (Host.Outcome.next.inj (hi.symm.trans (h'.symm.trans h))).symm⟩)
      · exact .inr (.inr ⟨hf, i, hd, hi.symm.trans (h'.symm.trans h)⟩)
    · exact .inr (.inl ⟨b, o, w, rfl, hl, (Host.Outcome.next.inj (h'.symm.trans h)).symm⟩)
    · exact .inr (.inr (.inl ⟨b, o, w, rfl, hl, (Host.Outcome.next.inj (h'.symm.trans h)).symm⟩))
    · exact .inr (.inr (.inr (.inl ⟨b, o, w, i, rfl, hl, (Host.Outcome.next.inj (h'.symm.trans h)).symm⟩)))
    · exact .inr (.inr (.inr (.inr ⟨b, o, w, rfl, (Host.Outcome.next.inj (h'.symm.trans h)).symm⟩)))

/-- A host read writes the fault record and the host's side only. -/
theorem hostRead_frame (s : State) (b : Nat) (o : Word) :
    ∃ f c v r d, hostRead s b o = { s with fault := f, errcode := c, finfo := v, response := r, draws := d } := by
  rcases hostRead_cases s b o with ⟨_, _, _, _, h⟩ | ⟨_, _, _, h⟩ | ⟨_, h⟩ <;> rw [h]
  · exact ⟨_, _, _, _, _, rfl⟩
  · exact ⟨_, _, _, _, _, rfl⟩
  · unfold State.raise; split
    · exact ⟨_, _, _, _, _, rfl⟩
    · exact ⟨_, _, _, _, _, rfl⟩

/-- Only a word access at offset 0 reaches `CMD`. -/
theorem locate_eq_cmd {n b : Nat} {o : Word} (h : locate n b o = some .cmd) : b = 4 ∧ o = 0#32 :=
  ⟨(offset_of_locate h).1, BitVec.eq_of_toNat_eq (offset_of_locate h).2⟩

/-- Only a word access at offset 8 reaches `CTRL`. -/
theorem locate_eq_ctrl {n b : Nat} {o : Word} (h : locate n b o = some .ctrl) : b = 4 ∧ o = 8#32 :=
  ⟨(offset_of_locate h).1, BitVec.eq_of_toNat_eq (offset_of_locate h).2⟩

/-- Entry `i` of the identity table is `i` (R109). -/
@[simp] theorem entry_identityTable (i : Byte) : identityTable.entry i = i := by
  simp [identityTable, PermTable.entry]

end Sys2Proof.Machine
end

