-- ==== Sys2Proof/Tests/Slice0.lean ====
section
/-! SUPPORT. Tests against the vectors of spec/95_test_vectors.md and words written out from spec/30_encoding.md R82,
and for each statement with hypotheses a witness that they can be met. Expected results come from the spec. -/

namespace Sys2Proof.Tests

open Machine

/-! ### Small states -/

/-- The reset state with an input loaded (spec/30_encoding.md R91). -/
def loaded (bs : List Byte) : State :=
  { State.reset with ibuf := Memory.cellsFrom 0 bs, ilen := BitVec.ofNat 16 bs.length }

/-- A state whose oldest pending event is `e`. -/
def facing (e : HostEvent) (s : State) : State :=
  { s with pending := [e] }

/-- The reset state with a fault recorded. -/
def faulted : State :=
  { State.reset with fault := true, errcode := .acceptNoProposal, finfo := 0x00000002 }

/-- A state that holds the identity table, its receive index at the end. -/
def keyed : State :=
  { State.reset with perm := some identityTable, ridx := 0xFF, sidx := 0x02 }

/-- A state right after a proposal: spec/95_test_vectors.md `PROP`. -/
def proposed : State :=
  { State.reset with lifecycle := .proposed, propKey := #v[0x3C, 0x91, 0x0F, 0xE4, 0x27, 0xB8, 0x55, 0x6A] }

/-- What a view of the next state is; none where the outcome is no next state. -/
def seen {α : Type} (f : State → α) : Host.Outcome State Fault Refusal → Option α
  | .next t => some (f t)
  | .fault _ => none
  | .refused _ => none

/-- What the host can read of a command's results. -/
structure Results where
  result : Word
  olen : Half
  rlen : Half
  obuf : Option (List Byte)
  rbuf : Option (List Byte)
deriving DecidableEq, Repr

/-- The results and the bytes of both output buffers that the host can read. -/
def results (s : State) : Results :=
  ⟨s.result, s.olen, s.rlen, s.obuf.readSeq s.olen.toNat, s.rbuf.readSeq s.rlen.toNat⟩

/-- The words `STATUS` and `FINFO` read. -/
def faultWords (s : State) : Word × Word :=
  (s.statusWord, s.finfo)

/-- The S1 packet. -/
def packetS1 : List Byte :=
  [0, 0, 0, 0, 8, 0, 8, 8, 0, 8, 0, 8]

/-! ### Well-formedness: one ill-formed term per check (R83) -/

theorem test_wellFormed_good : (⟨0x10, false, 0, 0xA5, 0⟩ : CommandFields).wellFormed = true := by decide
theorem test_wellFormed_op : (⟨0x06, false, 0, 0, 0⟩ : CommandFields).wellFormed = false := by decide
theorem test_wellFormed_rsv0 : (⟨0x04, false, 1, 0, 0⟩ : CommandFields).wellFormed = false := by decide
theorem test_wellFormed_rsv1 : (⟨0x04, false, 0, 0, 1⟩ : CommandFields).wellFormed = false := by decide
theorem test_wellFormed_inc : (⟨0x01, true, 0, 0, 0⟩ : CommandFields).wellFormed = false := by decide
theorem test_wellFormed_imm8 : (⟨0x11, false, 0, 1, 0⟩ : CommandFields).wellFormed = false := by decide

/-! ### Decoding: words written out bit by bit, `RSV1 IMM8 RSV0 INC OP` (R81, R82) -/

theorem test_decode_ksGenprop : decode 0b00000000_00000000_0000000_0_00000001 = .ok .ksGenprop := by decide
theorem test_decode_ksAccept : decode 0b00000000_00000000_0000000_0_00000010 = .ok .ksAccept := by decide
theorem test_decode_ksUpdate : decode 0b00000000_00000000_0000000_0_00000011 = .ok .ksUpdate := by decide
theorem test_decode_ksRkey_0 : decode 0b00000000_00000000_0000000_0_00000100 = .ok (.ksRkey false) := by decide
theorem test_decode_ksRkey_1 : decode 0b00000000_00000000_0000000_1_00000100 = .ok (.ksRkey true) := by decide
theorem test_decode_ksSkey_0 : decode 0b00000000_00000000_0000000_0_00000101 = .ok (.ksSkey false) := by decide
theorem test_decode_ksSkey_1 : decode 0b00000000_00000000_0000000_1_00000101 = .ok (.ksSkey true) := by decide
theorem test_decode_frXor_00 : decode 0b00000000_00000000_0000000_0_00010000 = .ok (.frXor 0x00) := by decide
theorem test_decode_frXor_A5 : decode 0b00000000_10100101_0000000_0_00010000 = .ok (.frXor 0xA5) := by decide
theorem test_decode_frCsum : decode 0b00000000_00000000_0000000_0_00010001 = .ok .frCsum := by decide
theorem test_decode_frVcsum : decode 0b00000000_00000000_0000000_0_00010010 = .ok .frVcsum := by decide
theorem test_decode_frDecode : decode 0b00000000_00000000_0000000_0_00010011 = .ok .frDecode := by decide

/-- ENC-I1 to ENC-I4: no such `OP`. -/
theorem test_decode_illegal_op :
    decode 0x00000000 = .error .opUnassigned ∧ decode 0x00000006 = .error .opUnassigned ∧
      decode 0x000000FF = .error .opUnassigned ∧ decode 0x00000014 = .error .opUnassigned := by decide

/-- ENC-I5, ENC-I6: `INC` set where it is not used. -/
theorem test_decode_illegal_inc :
    decode 0x00000101 = .error .incUnused ∧ decode 0x00000110 = .error .incUnused := by decide

/-- ENC-I7, ENC-I8: `IMM8` set where it is not used. -/
theorem test_decode_illegal_imm8 :
    decode 0x00010011 = .error .imm8Unused ∧ decode 0x00050004 = .error .imm8Unused := by decide

/-- ENC-I9 to ENC-I12: a reserved bit set. -/
theorem test_decode_illegal_reserved :
    decode 0x00000204 = .error .rsv0Set ∧ decode 0x00008013 = .error .rsv0Set ∧
      decode 0x01000004 = .error .rsv1Set ∧ decode 0x80FF0010 = .error .rsv1Set := by decide

/-- The assembled words of R90's two examples. -/
theorem test_encode_examples : encode (.ksRkey true) = 0x00000104 ∧ encode (.frXor 0xA5) = 0x00A50010 := by decide

theorem test_decodeTableWord :
    decodeTableWord 32 0x00A50010 = some (.frXor 0xA5) ∧ decodeTableWord 32 0x00000104 = some (.ksRkey true) ∧
      decodeTableWord 32 0x00000000 = none := by decide

/-! ### Host programs (R90, R91) -/

theorem test_assemble_mnemonics :
    assemble ["KS.RKEY", "1"] = some (.ksRkey true) ∧ assemble ["FR.XOR", "0x5C"] = some (.frXor 0x5C) ∧
      assemble ["FR.XOR", "92"] = some (.frXor 0x5C) ∧ assemble ["FR.XOR", "0x100"] = none ∧
      assemble ["KS.RKEY", "0"] = some (.ksRkey false) := by decide

theorem test_assemble_pseudo :
    assemble ["KS.PEEKR"] = some (.ksRkey false) ∧ assemble ["KS.NEXTR"] = some (.ksRkey true) ∧
      assemble ["KS.PEEKS"] = some (.ksSkey false) ∧ assemble ["KS.NEXTS"] = some (.ksSkey true) := by decide

/-- The `LOAD` of two bytes: two writes of `IBUF`, then `W ILEN, 2`; a bare mnemonic is a write to `CMD`. -/
theorem test_hostProgram :
    hostProgram [.load [0x10, 0x03], .command .frVcsum] =
      [.write 4 0x10000 0x10, .write 4 0x10004 0x03, .write 4 0x0000C 2, .write 4 0x00000 0x00000012] := by decide

/-! ### Running a command -/

/-- The first step after reset runs the word that withFetchWord places (KS-1, KS-3). -/
theorem test_step_first_command :
    seen faultWords (step (State.reset.withFetchWord 32 0x00000002)) = some (0x00000301, 0x00000002) ∧
      seen results (step (State.reset.withFetchWord 32 0x00000104)) = some ⟨0, 0, 0, some [], some []⟩ := by decide

/-- ENC-I5: an illegal word faults `ILLEGAL_CMD`. -/
theorem test_step_illegal_word :
    seen faultWords (step (State.reset.withFetchWord 32 0x00000101)) = some (0x00000101, 0x00000101) := by decide

/-- BUS-12: a command is dropped while a fault is recorded. -/
theorem test_step_dropped :
    step (facing (commandEvent .frCsum) faulted) = .next faulted := rfl

/-! ### Keystream Unit -/

/-- KS-4: `OLEN` is 8 and `KSTAT` shows Proposed. -/
theorem test_genprop : seen (fun t => (t.olen, t.kstatWord)) (exec .ksGenprop State.reset) = some (8, 1) := by decide

/-- KS-7. -/
theorem test_genprop_after_accept :
    seen faultWords (exec .ksGenprop { State.reset with lifecycle := .accepted }) = some (0x00000401, 1) := by decide

/-- KS-6: the key byte and the lifecycle after the accept. -/
theorem test_accept : seen (fun t => (t.dkey, t.lifecycle)) (exec .ksAccept proposed) = some (0xA5, .accepted) := by
  decide

/-- KS-8. -/
theorem test_accept_twice :
    seen faultWords (exec .ksAccept { State.reset with lifecycle := .accepted }) = some (0x00000301, 2) := by decide

/-- S1, KS-9: the key byte of the packet, and DK-6, DK-8. -/
theorem test_derive :
    deriveKeyByte packetS1 = 0xAD ∧
      deriveKeyByte [0xFF, 0xFF, 0xFF, 0xFF, 8, 0, 8, 8, 0, 8, 0, 8, 0xFF] = 0xAD ∧
      deriveKeyByte [0, 0, 0, 0, 0x07, 0xF0, 0x17, 0xE8, 0, 0, 0, 0] = 0x08 := by decide

/-- KS-9: `KS.UPDATE` on the S1 packet. -/
theorem test_update_derives :
    seen (fun t => (t.dkey, t.pv, t.lifecycle)) (exec .ksUpdate (loaded packetS1)) = some (0xAD, true, .empty) := by
  decide

/-- KS-11: `KS.UPDATE` on 11 bytes clears. -/
theorem test_update_clears :
    seen State.kstatWord (exec .ksUpdate { loaded (List.replicate 11 0) with dkey := 0xAD, sidx := 3 }) = some 0 := by
  decide

/-- S1: rows 0x00 and 0xF0 of the table of `KeySchedule(0xAD)`. -/
theorem test_keySchedule_AD :
    ((keySchedule 0xAD).toList.take 16, (keySchedule 0xAD).toList.drop 240) =
      ([0xAD, 0x5B, 0x05, 0x85, 0x9A, 0x15, 0x17, 0xBF, 0x64, 0xEF, 0x3E, 0x86, 0x0F, 0xC9, 0x07, 0x3D],
        [0x28, 0x56, 0x63, 0x10, 0x58, 0x0B, 0x5C, 0x7D, 0xF2, 0x9D, 0xDD, 0xE2, 0x45, 0x8F, 0x35, 0xF7]) := by
  decide +kernel

/-- R105: the byte at `RIDX`, then the index wraps (on the identity table). -/
theorem test_rkey_wraps :
    seen (fun t => (t.result, t.ridx, t.sidx)) (exec (.ksRkey true) keyed) = some (0x000000FF, 0x00, 0x02) := by
  decide +kernel

/-- R107: a peek of the send stream. -/
theorem test_skey_peeks :
    seen (fun t => (t.result, t.ridx, t.sidx)) (exec (.ksSkey false) keyed) = some (0x00000002, 0xFF, 0x02) := by
  decide +kernel

/-- KS-1, KS-2: the sentinel, and no index moves, while no table is held. -/
theorem test_keys_without_table :
    seen (fun t => (t.result, t.kstatWord)) (exec (.ksRkey true) State.reset) = some (0, 0) ∧
      seen (fun t => (t.result, t.kstatWord)) (exec (.ksSkey true) State.reset) = some (0, 0) := by decide

/-! ### Framer Unit -/

/-- FR-XOR-1. -/
theorem test_xor :
    seen results (exec (.frXor 0x5A) (loaded [0x00, 0xFF, 0x5A, 0xA5])) =
      some ⟨0, 4, 0, some [0x5A, 0xA5, 0x00, 0xFF], some []⟩ := by decide

/-- FR-XOR-2. -/
theorem test_xor_empty : seen results (exec (.frXor 0xFF) State.reset) = some ⟨0, 0, 0, some [], some []⟩ := by decide

/-- FR-CS-2, FR-CS-7: the sum wraps, and bytes beyond the frame are ignored. -/
theorem test_csum :
    seen State.result (exec .frCsum (loaded [0xFF, 0x02, 0xFF, 0x00])) = some 0x00000000 ∧
      seen State.result (exec .frCsum (loaded [0x80, 0x03, 0x80, 0x01, 0x04, 0x99])) = some 0x00000004 := by decide

/-- FR-CS-3, FR-CS-5, FR-CS-9: a short buffer faults, a byte never written faults first. -/
theorem test_csum_faults :
    seen faultWords (exec .frCsum (loaded [0x10, 0x03, 0xAA, 0xBB])) = some (0x00000201, 0x11) ∧
      seen faultWords (exec .frCsum (loaded [0x07])) = some (0x00000201, 0x11) ∧
      seen faultWords (exec .frCsum { State.reset with ilen := 4 }) = some (0x00000701, 0x11) := by decide

/-- FR-VC-2, FR-VC-4, FR-VC-9. -/
theorem test_vcsum_valid :
    seen State.result (exec .frVcsum (loaded [0x00, 0x00])) = some 0x00000100 ∧
      seen State.result (exec .frVcsum (loaded [0xF3, 0x04, 0x00, 0xAA, 0x01, 0xA2])) = some 0x00000100 ∧
      seen State.result (exec .frVcsum (loaded [0x80, 0x03, 0x80, 0x01, 0x04, 0x55])) = some 0x00000100 := by decide

/-- FR-VC-1, FR-VC-3, FR-VC-7. -/
theorem test_vcsum_invalid :
    seen State.result (exec .frVcsum (loaded [0x10, 0x03, 0xAA, 0xBB])) = some 0 ∧
      seen State.result (exec .frVcsum (loaded [0x05, 0x00])) = some 0 ∧
      seen State.result (exec .frVcsum State.reset) = some 0 := by decide

/-- F-DEC-2, F-DEC-3: the fallback key, and a remainder. -/
theorem test_decode_frames :
    seen results (exec .frDecode (loaded [0x32, 0x59, 0x5C, 0x4D, 0x7D, 0xF9])) =
        some ⟨0x0000015D, 6, 0, some [0x6F, 0x04, 0x01, 0x10, 0x20, 0xA4], some []⟩ ∧
      seen results (exec .frDecode (loaded [0xAF, 0x58, 0x5C, 0xF6, 0x5D, 0xFE, 0x1D, 0x30, 0x33, 0x34, 0x0B])) =
        some ⟨0x0000035C, 6, 5, some [0xF3, 0x04, 0x00, 0xAA, 0x01, 0xA2], some [0x1D, 0x30, 0x33, 0x34, 0x0B]⟩ := by
  decide

/-- F-DEC-7, F-DEC-8, F-DEC-9, F-DEC-10: the first candidate wins, the fallback, a two-byte frame, absent. -/
theorem test_decode_corners :
    seen results (exec .frDecode (loaded [0x4D, 0x5E, 0x5C, 0x4F, 0x7B])) =
        some ⟨0x0000035C, 4, 1, some [0x11, 0x02, 0x00, 0x13], some [0x7B]⟩ ∧
      seen results (exec .frDecode (loaded [0x6E, 0x23, 0x21, 0x29, 0x7B])) =
        some ⟨0x00000120, 5, 0, some [0x4E, 0x03, 0x01, 0x09, 0x5B], some []⟩ ∧
      seen results (exec .frDecode (loaded [0x77, 0x77, 0x77, 0x77])) =
        some ⟨0x00000377, 2, 2, some [0x00, 0x00], some [0x77, 0x77]⟩ ∧
      seen results (exec .frDecode (loaded [0x50, 0x49, 0x40, 0x41, 0x42])) = some ⟨0, 0, 0, some [], some []⟩ := by
  decide

/-! ### The register bus -/

/-- BUS-1, BUS-2, BUS-4: misaligned, unmapped, read-only. -/
theorem test_bus_illegal_writes :
    seen faultWords (step (facing (.write 4 0x00002 1) State.reset)) = some (0x00000501, 0x00000002) ∧
      seen faultWords (step (facing (.write 4 0x00024 1) State.reset)) = some (0x00000501, 0x00000024) ∧
      seen faultWords (step (facing (.write 4 0x00004 0) State.reset)) = some (0x00000501, 0x00000004) := by decide

/-- BUS-3: a read of an unmapped offset. -/
theorem test_bus_illegal_read :
    seen faultWords (step (facing (.read 4 0x00800) State.reset)) = some (0x00000501, 0x00000800) := by decide

/-- BUS-5, BUS-6, BUS-7: writes of `ILEN`. -/
theorem test_bus_ilen :
    seen faultWords (step (facing (.write 4 0x0000C 0x00010000) State.reset)) = some (0x00000601, 0x00010000) ∧
      seen faultWords (step (facing (.write 4 0x0000C 4097) State.reset)) = some (0x00000601, 0x00001001) ∧
      seen State.ilen (step (facing (.write 4 0x0000C 4096) State.reset)) = some 4096 := by decide

/-- BUS-8, BUS-14: a reserved bit of `CTRL`, and the soft reset. -/
theorem test_bus_ctrl :
    seen faultWords (step (facing (.write 4 0x00008 3) State.reset)) = some (0x00000501, 0x00000008) ∧
      seen faultWords (step (facing (.write 4 0x00008 1) faulted)) = some (0, 0) := by decide

/-- BUS-9: a buffer write keeps bits [7:0] only. -/
theorem test_bus_ibuf :
    seen (fun t => t.ibuf.read 0) (step (facing (.write 4 0x10000 0x12345678) State.reset)) = some (some 0x78) ∧
      seen State.response (step (facing (.read 4 0x10000) (loaded [0x78]))) = some (some 0x00000078) := by decide

/-- BUS-11: the first fault is kept. -/
theorem test_bus_first_fault_kept :
    seen faultWords (step (facing (.write 4 0x00024 0) faulted)) = some (0x00000301, 0x00000002) := by decide

/-! ### Witnesses: the hypotheses of each statement can be met, clause by clause -/

/-- A written input, checked byte by byte. -/
theorem inputHeld_of {s : State} (h : ∀ i < s.ilen.toNat, (s.ibuf.read i).isSome = true) : InputHeld s :=
  fun i hi => Option.isSome_iff_exists.1 (h i hi)

theorem witness_DecodedWordIsTheAssembledWord : decode 0x00FF0010 = .ok (.frXor 0xFF) := by decide

/-- One illegal word at a boundary of each way to be illegal: `OP` 0x00, 0x06, 0x0F, 0x14, 0xFF, `RSV0`, `RSV1`, `INC`,
`IMM8`. -/
theorem witness_IllegalWordsFaultIllegalCmd :
    (0x00000000 : Word).extractLsb' 0 8 = 0 ∧ (0x00000006 : Word).extractLsb' 0 8 = 6 ∧
      (0x0000000F : Word).extractLsb' 0 8 = 0x0F ∧ (0x00000014 : Word).extractLsb' 0 8 = 0x14 ∧
      (0x000000FF : Word).extractLsb' 0 8 = 0xFF ∧ (0x00000204 : Word).extractLsb' 9 7 ≠ 0 ∧
      (0x80FF0010 : Word).extractLsb' 24 8 ≠ 0 ∧ (0x00000103 : Word).getLsbD 8 = true ∧
      (0x00010011 : Word).extractLsb' 16 8 ≠ 0 ∧
      (facing (.write 4 0x00000 0x00010011) State.reset).pending = .write 4 0x00000 0x00010011 :: [] ∧
      (facing (.write 4 0x00000 0x00010011) State.reset).fault = false := by decide

theorem witness_StepRunsTheDecodedCommand :
    (facing (.write 4 0x00000 0x00000104) State.reset).pending = .write 4 0x00000 0x00000104 :: [] ∧
      (facing (.write 4 0x00000 0x00000104) State.reset).fault = false ∧
      decode 0x00000104 = .ok (.ksRkey true) := by decide

theorem witness_CommandDroppedWhileFaulted :
    (facing (.write 4 0x00000 0x00000104) faulted).pending = .write 4 0x00000 0x00000104 :: [] ∧
      (facing (.write 4 0x00000 0x00000104) faulted).fault = true := by decide

theorem witness_StepTakesOneEvent :
    step State.reset = .next State.reset ∧ State.reset.pending = [] ∧
      step (facing .resetInput State.reset) = .next State.reset := ⟨rfl, rfl, rfl⟩

theorem witness_ResetInputAndSoftReset :
    IsReset .resetInput ∧ IsReset (.write 4 0x00008 1) ∧ (facing .resetInput faulted).pending = [.resetInput] :=
  ⟨.inl rfl, .inr rfl, rfl⟩

theorem witness_CtrlAccesses :
    (facing (.write 4 0x00008 2) faulted).pending = .write 4 0x00008 2 :: [] ∧ (2 : Word).extractLsb' 1 31 ≠ 0 ∧
      (facing (.write 4 0x00008 0x80000001) State.reset).pending = .write 4 0x00008 0x80000001 :: [] ∧
      (0x80000001 : Word).extractLsb' 1 31 ≠ 0 ∧
      (facing (.write 4 0x00008 0) State.reset).pending = .write 4 0x00008 0 :: [] ∧
      (facing (.write 4 0x00008 1) faulted).pending = .write 4 0x00008 1 :: [] ∧
      (facing (.read 4 0x00008) State.reset).pending = .read 4 0x00008 :: [] := by decide

theorem witness_OnlyResetClearsFault :
    (facing (.write 4 0x0000C 5) faulted).pending = .write 4 0x0000C 5 :: [] ∧
      (facing (.write 4 0x0000C 5) faulted).fault = true ∧ ¬IsReset (.write 4 0x0000C 5) ∧
      ∃ t, step (facing (.write 4 0x0000C 5) faulted) = .next t :=
  ⟨rfl, rfl, by simp [IsReset], _, rfl⟩

theorem witness_FaultRecordDoesNotAffectOtherAccesses :
    (facing (.write 4 0x00024 0) State.reset).pending = .write 4 0x00024 0 :: [] ∧
      (∀ w, HostEvent.write 4 0x00024 0 ≠ .write 4 0x00000 w) ∧
      HostEvent.write 4 0x00024 0 ≠ .read 4 0x00004 ∧ HostEvent.write 4 0x00024 0 ≠ .read 4 0x00020 ∧
      ∃ t, step (facing (.write 4 0x00024 0) State.reset) = .next t :=
  ⟨rfl, by simp, by simp, by simp, _, rfl⟩

theorem witness_FaultedRunNeverEndsWell :
    (facing (.read 4 0x00004) faulted).fault = true ∧
      ∀ e ∈ (facing (.read 4 0x00004) faulted).pending, ¬IsReset e :=
  ⟨rfl, by simp [facing, IsReset]⟩

theorem witness_FaultingCommandWritesOnlyTheFaultRecord :
    State.reset.fault = false ∧ exec .ksAccept State.reset = .next faulted ∧ faulted.fault = true := ⟨rfl, rfl, rfl⟩

theorem witness_CompletedCommandRewritesAllResults :
    (loaded [0x00, 0x00]).fault = false ∧
      ∃ t, exec .frVcsum (loaded [0x00, 0x00]) = .next t ∧ t.fault = false :=
  ⟨rfl, _, rfl, rfl⟩

theorem witness_UnwrittenInputFaults :
    State.fault { State.reset with ilen := 1 } = false ∧
      ∃ k < (1 : Half).toNat, State.reset.ibuf.read k = none :=
  ⟨rfl, 0, by decide, rfl⟩

theorem witness_GenpropStoresTheDraws :
    State.reset.lifecycle ≠ .accepted ∧ proposed.lifecycle ≠ .accepted ∧
      State.lifecycle { State.reset with lifecycle := .accepted } = .accepted ∧
      State.fault { State.reset with lifecycle := .accepted } = false := by decide

theorem witness_AcceptDerivesFromTheProposal :
    proposed.lifecycle = .proposed ∧ State.reset.lifecycle ≠ .proposed ∧ State.reset.fault = false := by decide

/-- The two sides of `HANDSHAKE_MIN`: 11 bytes and 12 bytes. -/
theorem witness_UpdateDerivesOrClears :
    InputHeld (loaded (List.replicate 11 0)) ∧ (loaded (List.replicate 11 0)).ilen.toNat = 11 ∧
      InputHeld (loaded packetS1) ∧ (loaded packetS1).ilen.toNat = 12 :=
  ⟨inputHeld_of (by decide), by decide, inputHeld_of (by decide), by decide⟩

theorem witness_KeyByteIsBitThreeOfTheKeyBytes : 12 ≤ packetS1.length ∧ 7 < 8 := by decide

theorem witness_RkeyReadsThenAdvances : keyed.perm = some identityTable ∧ State.reset.perm = none := ⟨rfl, rfl⟩

theorem witness_SkeyReadsThenAdvances : keyed.perm = some identityTable ∧ State.reset.perm = none := ⟨rfl, rfl⟩

theorem witness_KeystreamRotatesThroughTheTable :
    State.perm { keyed with ridx := 0, sidx := 0 } = some identityTable ∧
      State.ridx { keyed with ridx := 0, sidx := 0 } = 0 ∧ State.sidx { keyed with ridx := 0, sidx := 0 } = 0 :=
  ⟨rfl, rfl, rfl⟩

theorem witness_PeekThenConsumeAnswersTheSameByte :
    (∃ t, exec (.ksRkey false) keyed = .next t) ∧ ∃ t, exec (.ksSkey false) keyed = .next t :=
  ⟨⟨_, rfl⟩, _, rfl⟩

/-- Both commands that install a table. -/
theorem witness_NoTableAnswersZeroUntilADerive :
    (proposed.perm = none ∧ ∃ t, exec .ksAccept proposed = .next t ∧ t.perm ≠ none) ∧
      (loaded packetS1).perm = none ∧ ∃ t, exec .ksUpdate (loaded packetS1) = .next t ∧ t.perm ≠ none :=
  ⟨⟨rfl, _, rfl, Option.some_ne_none _⟩, rfl, _, rfl, Option.some_ne_none _⟩

theorem witness_IndicesAffectNoByteWithoutATable :
    (proposed.perm = none ∧ ∃ t, exec .ksAccept proposed = .next t ∧ t.perm ≠ none) ∧
      State.reset.perm = none ∧ ∃ t, exec (.ksRkey true) State.reset = .next t :=
  ⟨⟨rfl, _, rfl, Option.some_ne_none _⟩, rfl, _, rfl⟩

theorem witness_UpdateIsIdempotent :
    (loaded packetS1).input = some packetS1 ∧
      State.input { loaded packetS1 with sidx := 1, ridx := 3 } = some packetS1 ∧
      (∃ t, exec .ksUpdate (loaded packetS1) = .next t) ∧
      ∃ t, exec .ksUpdate { loaded packetS1 with sidx := 1, ridx := 3 } = .next t :=
  ⟨by decide, by decide, ⟨_, rfl⟩, _, rfl⟩

theorem witness_DirectionsAreIndependent :
    (∃ t, exec (.ksRkey true) keyed = .next t) ∧ ∃ t, exec (.ksSkey true) keyed = .next t :=
  ⟨⟨_, rfl⟩, _, rfl⟩

theorem witness_LifecycleMovesForward :
    (∃ t, step (facing (commandEvent .ksAccept) proposed) = .next t ∧ t.lifecycle ≠ proposed.lifecycle) ∧
      ¬IsReset (commandEvent .ksAccept) ∧
      (∃ t, step (facing (commandEvent .ksGenprop) State.reset) = .next t ∧ t.lifecycle ≠ .empty) ∧
      (∃ t, step (facing .resetInput proposed) = .next t ∧ t.lifecycle ≠ proposed.lifecycle) ∧
      (∃ t, exec .ksGenprop State.reset = .next t ∧ t.lifecycle ≠ State.reset.lifecycle) ∧
      ∃ t, exec .ksAccept proposed = .next t ∧ t.lifecycle ≠ proposed.lifecycle :=
  ⟨⟨_, rfl, by decide⟩, by simp [commandEvent, IsReset], ⟨_, rfl, by decide⟩, ⟨_, rfl, by decide⟩,
    ⟨_, rfl, by decide⟩, _, rfl, by decide⟩

theorem witness_ProposalIsReadOnlyInProposed :
    (facing (commandEvent .ksGenprop) State.reset).lifecycle ≠ .proposed ∧
      ∃ t, step (facing (commandEvent .ksGenprop) State.reset) = .next t :=
  ⟨by decide, _, rfl⟩

/-- An empty and a nonempty input. -/
theorem witness_XorTransformsTheWholeInput :
    InputHeld State.reset ∧ InputHeld (loaded [0x00, 0xFF]) ∧ 1 < (loaded [0x00, 0xFF]).ilen.toNat :=
  ⟨inputHeld_of (by decide), inputHeld_of (by decide), by decide⟩

/-- The shortest frame that fits exactly, and the inputs one byte short of it and of having a length byte. -/
theorem witness_CsumSumsTheDeclaredFrame :
    (loaded [0x00, 0x00]).input = some [0x00, 0x00] ∧ DeclaresFrame [0x00, 0x00] 2 ∧
      (loaded [0x10, 0x03, 0xAA, 0xBB]).input = some [0x10, 0x03, 0xAA, 0xBB] ∧
      (¬∃ L, DeclaresFrame [0x10, 0x03, 0xAA, 0xBB] L) ∧
      (loaded [0x07]).input = some [0x07] ∧ (¬∃ L, DeclaresFrame [0x07] L) ∧ (loaded [0x07]).fault = false :=
  ⟨by decide, ⟨0, by decide⟩, by decide, by simp [DeclaresFrame], by decide, by simp [DeclaresFrame], by decide⟩

theorem witness_VcsumAcceptsExactlyValidFrames :
    (loaded [0x00, 0x00]).input = some [0x00, 0x00] ∧ (∃ L, ValidFrame [0x00, 0x00] L) ∧
      (loaded [0x05, 0x00]).input = some [0x05, 0x00] ∧ (¬∃ L, ValidFrame [0x05, 0x00] L) ∧
      State.reset.input = some [] ∧ ¬∃ L, ValidFrame [] L :=
  ⟨by decide, ⟨2, ⟨0, by decide⟩, 0, by decide⟩, by decide, by simp [ValidFrame, DeclaresFrame, sumMod256], by decide,
    by simp [ValidFrame, DeclaresFrame]⟩

/-- F-DEC-9 (first candidate, the shortest frame, a remainder) and F-DEC-2 (the fallback, no remainder). -/
theorem witness_DecodeReturnsTheFrame :
    ((loaded [0x77, 0x77, 0x77, 0x77]).input = some [0x77, 0x77, 0x77, 0x77] ∧
        ValidUnder [0x77, 0x77, 0x77, 0x77] 0x77 2) ∧
      (loaded [0x32, 0x59, 0x5C, 0x4D, 0x7D, 0xF9]).input = some [0x32, 0x59, 0x5C, 0x4D, 0x7D, 0xF9] ∧
      (¬∃ K, ValidUnder [0x32, 0x59, 0x5C, 0x4D, 0x7D, 0xF9] 0x5C K) ∧
      ValidUnder [0x32, 0x59, 0x5C, 0x4D, 0x7D, 0xF9] (0x5C ^^^ 1) 6 :=
  ⟨⟨by decide, ⟨0, by decide⟩, 0, by decide⟩, by decide, by simp [ValidUnder, ValidFrame, DeclaresFrame, sumMod256],
    ⟨4, by decide⟩, 0xA4, by decide⟩

/-- Three bytes, and F-DEC-6: neither candidate. -/
theorem witness_DecodeAbsentIsNoFault :
    (loaded [0x01, 0x02, 0x03]).input = some [0x01, 0x02, 0x03] ∧
      (loaded [0xAF, 0x58, 0x5C, 0xF6, 0x5D, 0x7E]).input = some [0xAF, 0x58, 0x5C, 0xF6, 0x5D, 0x7E] ∧
      (¬∃ L, ValidUnder [0xAF, 0x58, 0x5C, 0xF6, 0x5D, 0x7E] 0x5C L) ∧
      ¬∃ L, ValidUnder [0xAF, 0x58, 0x5C, 0xF6, 0x5D, 0x7E] (0x5C ^^^ 1) L :=
  ⟨by decide, by decide, by simp [ValidUnder, ValidFrame, DeclaresFrame, sumMod256],
    by simp [ValidUnder, ValidFrame, DeclaresFrame, sumMod256]⟩

/-- F-DEC-1 and F-DEC-2: both candidates, frames of 3 bytes or more. -/
theorem witness_DecodedByteTwoNamesTheCandidate :
    (∃ t, exec .frDecode (loaded [0xAF, 0x58, 0x5C, 0xF6, 0x5D, 0xFE]) = .next t ∧ t.rflag = true ∧
        t.rbyte = 0x5C ∧ 3 ≤ t.olen.toNat) ∧
      ∃ t, exec .frDecode (loaded [0x32, 0x59, 0x5C, 0x4D, 0x7D, 0xF9]) = .next t ∧ t.rflag = true ∧
        t.rbyte = 0x5D ∧ 3 ≤ t.olen.toNat :=
  ⟨⟨_, rfl, by decide⟩, _, rfl, by decide⟩

/-- The shortest frame, with a remainder, and F-DEC-1, without one. -/
theorem witness_DecodeLengthsAddUp :
    (∃ t, exec .frDecode (loaded [0x77, 0x77, 0x77, 0x77]) = .next t ∧ t.rflag = true ∧ t.remv = true) ∧
      ∃ t, exec .frDecode (loaded [0xAF, 0x58, 0x5C, 0xF6, 0x5D, 0xFE]) = .next t ∧ t.rflag = true ∧ t.remv = false :=
  ⟨⟨_, rfl, by decide⟩, _, rfl, by decide⟩

theorem witness_CandidateLengthsDifferByOne :
    frameLength (xorBytes [0x6E, 0x23, 0x21, 0x29, 0x7B] 0x21) = some 4 ∧
      frameLength (xorBytes [0x6E, 0x23, 0x21, 0x29, 0x7B] (0x21 ^^^ 1)) = some 5 := by decide

/-- The frame of F-DEC-1 with and without a remainder, and the frame of F-DEC-2 under the fallback. -/
theorem witness_DecodeSplitsFrameAndRemainder :
    ValidFrame [0xF3, 0x04, 0x00, 0xAA, 0x01, 0xA2] 6 ∧ [0xF3, 0x04, (0x00 : Byte), 0xAA, 0x01, 0xA2][2]? = some 0 ∧
      ValidFrame [0x6F, 0x04, 0x01, 0x10, 0x20, 0xA4] 6 ∧ [0x6F, 0x04, (0x01 : Byte), 0x10, 0x20, 0xA4][2]? = some 1 ∧
      ¬∃ L, ValidUnder (xorBytes [0x6F, 0x04, 0x01, 0x10, 0x20, 0xA4] 0x5D ++ []) (0x5D ^^^ 1) L :=
  ⟨⟨⟨4, by decide⟩, 0xA2, by decide⟩, rfl, ⟨⟨4, by decide⟩, 0xA4, by decide⟩, rfl,
    by simp [xorBytes, ValidUnder, ValidFrame, DeclaresFrame, sumMod256]⟩

/-- FR-XOR-5a and FR-XOR-5b. -/
theorem witness_XorIsAnInvolution :
    (loaded [0xF3, 0x04]).input = some [0xF3, 0x04] ∧
      ∃ t, exec (.frXor 0x3C) (loaded [0xF3, 0x04]) = .next t ∧ (loaded [0xCF, 0x38]).ilen = t.olen ∧
        (∀ i < (loaded [0xCF, 0x38]).ilen.toNat, (loaded [0xCF, 0x38]).ibuf.read i = t.obuf.read i) ∧
        ∃ v, exec (.frXor 0x3C) (loaded [0xCF, 0x38]) = .next v :=
  ⟨by decide, _, rfl, by decide, by decide, _, rfl⟩

/-- An FR command; KS.GENPROP that stores, and that is refused; and a KS command that stores nothing. -/
theorem witness_UnitsAreSeparate :
    (∃ t, exec .frDecode keyed = .next t) ∧
      (State.reset.lifecycle ≠ .accepted ∧ ∃ t, exec .ksGenprop State.reset = .next t) ∧
      (∃ t, exec .ksGenprop { State.reset with lifecycle := .accepted } = .next t) ∧
      ∃ t, exec (.ksRkey true) keyed = .next t :=
  ⟨⟨_, rfl⟩, ⟨by decide, _, rfl⟩, ⟨_, rfl⟩, _, rfl⟩

theorem witness_NoCommandWritesTheInput : ∃ t, exec .frCsum (loaded [0x00, 0x00]) = .next t := ⟨_, rfl⟩

/-- A byte access, a misaligned one, and each end of each unmapped gap (with `MAX_BUF` 4096); and writes to the
read-only locations beside them. -/
theorem witness_IllegalAccessesFault :
    ParameterLegal State.reset ∧ State.reset.fault = false ∧ (1 ≠ 4) ∧ (0x00002 : Word).toNat % 4 ≠ 0 ∧
      ¬MappedOffset 4096 0x00024 ∧ ¬MappedOffset 4096 0x003FC ∧ ¬MappedOffset 4096 0x00800 ∧
      ¬MappedOffset 4096 0x0FFFC ∧ ¬MappedOffset 4096 0x14000 ∧ ¬MappedOffset 4096 0x3FFFC ∧
      ¬MappedOffset 4096 0xFFFFFFFC ∧ ¬WritableOffset 4096 0x00004 ∧ ¬WritableOffset 4096 0x00400 ∧
      ¬WritableOffset 4096 0x20000 ∧ ¬WritableOffset 4096 0x14000 := by
  simp [ParameterLegal, State.reset, MappedOffset, WritableOffset, Config.maxBufDefault]

/-- The ends of each mapped range. -/
theorem witness_LegalReadHasNoSideEffect :
    ParameterLegal State.reset ∧ MappedOffset 4096 0x00000 ∧ MappedOffset 4096 0x00020 ∧
      MappedOffset 4096 0x00400 ∧ MappedOffset 4096 0x007FC ∧ MappedOffset 4096 0x10000 ∧
      MappedOffset 4096 0x13FFC ∧ MappedOffset 4096 0x33FFC ∧
      ∃ t, step (facing (.read 4 0x33FFC) State.reset) = .next t :=
  ⟨by simp [ParameterLegal, State.reset, Config.maxBufDefault], by simp [MappedOffset], by simp [MappedOffset],
    by simp [MappedOffset], by simp [MappedOffset], by simp [MappedOffset], by simp [MappedOffset],
    by simp [MappedOffset], _, rfl⟩

theorem witness_RegisterReads :
    (facing (.read 4 0x00010) State.reset).pending = .read 4 0x00010 :: [] ∧
      ((0x00010 : Word), State.reset.olen.setWidth 32) ∈ [((0x00010 : Word), State.reset.olen.setWidth 32)] := by decide

theorem witness_StatusAndKstatFields :
    (facing (.read 4 0x00004) faulted).pending = .read 4 0x00004 :: [] ∧
      (facing (.read 4 0x0001C) keyed).pending = .read 4 0x0001C :: [] := ⟨rfl, rfl⟩

/-- The last entry of the table, held and not. -/
theorem witness_PermwinReadsTheTable :
    (facing (.read 4 0x007FC) keyed).pending =
        .read 4 (BitVec.ofNat 32 (0x00400 + 4 * (0xFF : Byte).toNat)) :: [] ∧
      (facing (.read 4 0x007FC) keyed).perm = some identityTable ∧
      (facing (.read 4 0x007FC) State.reset).perm = none := ⟨rfl, rfl, rfl⟩

/-- One byte out and one remainder byte, with a second byte left in each buffer from an earlier command. -/
def withOutputs : State :=
  { loaded [0x78] with olen := 1, rlen := 1, obuf := [(0, 0x11), (1, 0x12)], rbuf := [(0, 0x21), (1, 0x22)] }

/-- In each buffer the last byte that is readable and the first that is not, at `OLEN` and `RLEN`; and the last offset
of the `IBUF` window. -/
theorem witness_BufferReads :
    (ParameterLegal withOutputs ∧ 1 < withOutputs.maxBuf ∧ 4095 < withOutputs.maxBuf) ∧
      (withOutputs.ibuf.read 0 = some 0x78 ∧ withOutputs.ibuf.read 1 = none ∧ withOutputs.ibuf.read 4095 = none) ∧
      ((if 0 < withOutputs.olen.toNat then withOutputs.obuf.read 0 else none) = some 0x11 ∧
        (if 1 < withOutputs.olen.toNat then withOutputs.obuf.read 1 else none) = none) ∧
      ((if 0 < withOutputs.rlen.toNat then withOutputs.rbuf.read 0 else none) = some 0x21 ∧
        (if 1 < withOutputs.rlen.toNat then withOutputs.rbuf.read 1 else none) = none) ∧
      (facing (.read 4 0x13FFC) withOutputs).pending = .read 4 (BitVec.ofNat 32 (0x10000 + 4 * 4095)) :: [] ∧
      (facing (.read 4 0x20004) withOutputs).pending = .read 4 (BitVec.ofNat 32 (0x20000 + 4 * 1)) :: [] ∧
      (facing (.read 4 0x30004) withOutputs).pending = .read 4 (BitVec.ofNat 32 (0x30000 + 4 * 1)) :: [] :=
  ⟨⟨⟨by decide, by decide⟩, by decide, by decide⟩, by decide, by decide, by decide, rfl, rfl, rfl⟩

theorem witness_InputByteWrite :
    ParameterLegal State.reset ∧ 4095 < State.reset.maxBuf ∧
      (facing (.write 4 0x13FFC 0x12345678) State.reset).pending =
        .write 4 (BitVec.ofNat 32 (0x10000 + 4 * 4095)) 0x12345678 :: [] := by
  simp [ParameterLegal, State.reset, Config.maxBufDefault, facing]

/-- `MAX_BUF` itself, one more, and a word with its upper half set. -/
theorem witness_IlenAccesses :
    ((4096 : Word).extractLsb' 16 16 = 0 ∧ ((4096 : Word).extractLsb' 0 16).toNat ≤ State.reset.maxBuf) ∧
      State.reset.maxBuf < ((4097 : Word).extractLsb' 0 16).toNat ∧ (0x00010000 : Word).extractLsb' 16 16 ≠ 0 ∧
      (facing (.write 4 0x0000C 4097) faulted).pending = .write 4 0x0000C 4097 :: [] ∧
      (facing (.read 4 0x0000C) State.reset).pending = .read 4 0x0000C :: [] := by decide

/-- A state with a written input, pending commands and an input length meets the invariant. -/
theorem witness_StepKeepsTheInvariant :
    Inv (facing (commandEvent .frDecode) (loaded [0x77, 0x77, 0x77, 0x77])) ∧
      ∃ t, step (facing (commandEvent .frDecode) (loaded [0x77, 0x77, 0x77, 0x77])) = .next t := by
  refine ⟨?_, _, rfl⟩
  constructor <;>
    simp [facing, loaded, State.reset, ParameterLegal, BuffersCanonical, BuffersInRange, LengthsLegal, OutputsHeld,
      FaultRecordConsistent, ResultReservedZero, KeyReachable, NoKeyIsZero, TableBijective, Config.maxBufDefault,
      Memory.wf, Memory.cellsFrom]

theorem witness_StepKeepsTheBuffers :
    ParameterLegal (facing (commandEvent .frDecode) (loaded [0x77, 0x77, 0x77, 0x77])) ∧
      BuffersCanonical (facing (commandEvent .frDecode) (loaded [0x77, 0x77, 0x77, 0x77])) ∧
      BuffersInRange (facing (commandEvent .frDecode) (loaded [0x77, 0x77, 0x77, 0x77])) ∧
      LengthsLegal (facing (commandEvent .frDecode) (loaded [0x77, 0x77, 0x77, 0x77])) ∧
      OutputsHeld (facing (commandEvent .frDecode) (loaded [0x77, 0x77, 0x77, 0x77])) :=
  let h := witness_StepKeepsTheInvariant.1
  ⟨h.parameterLegal, h.buffersCanonical, h.buffersInRange, h.lengthsLegal, h.outputsHeld⟩

/-- A held table: the identity. -/
theorem witness_StepKeepsTheTableBijective :
    TableBijective (facing (commandEvent (.ksRkey true)) keyed) ∧
      ∃ t, step (facing (commandEvent (.ksRkey true)) keyed) = .next t := by
  refine ⟨?_, _, rfl⟩
  rintro t ht
  obtain rfl : identityTable = t := Option.some.inj ht
  intro b
  refine ⟨b, by simp [identityTable], fun j hj => ?_⟩
  simpa [identityTable] using hj

/-- A held table: the schedule of its key byte; and no table. -/
theorem witness_StepKeepsTheKeyReachable :
    KeyReachable { State.reset with perm := some (keySchedule 0xAD), dkey := 0xAD } ∧
      NoKeyIsZero { State.reset with perm := some (keySchedule 0xAD), dkey := 0xAD } ∧
      KeyReachable State.reset ∧ NoKeyIsZero State.reset :=
  ⟨fun _ h => (Option.some.inj h).symm, fun h => absurd h (Option.some_ne_none _), fun _ h => absurd h.symm (Option.some_ne_none _),
    fun _ => ⟨rfl, rfl, rfl⟩⟩

theorem witness_StepKeepsTheFaultRecord :
    FaultRecordConsistent faulted ∧ FaultRecordConsistent (facing (commandEvent .ksAccept) State.reset) := by
  simp [FaultRecordConsistent, faulted, facing, State.reset]

end Sys2Proof.Tests
end

section
/-! SUPPORT. The faults a command raises with their causes, the ways it completes, and the updates a step is made of:
an invariant that each update keeps is kept by every step. -/

namespace Sys2Proof.Proofs

open Machine

/-! ### What a command does -/

/-- Command `i` completes from `s` without a fault of its own and leaves the third state: one case per way a command's
rule can end. -/
inductive Completes (s : State) : Instr → State → Prop
  | genprop (hl : s.lifecycle ≠ .accepted) : Completes s .ksGenprop
      (({ s with propKey := s.proposal, obuf := s.obuf.writeSeq s.proposal.toList, lifecycle := .proposed,
                 draws := s.draws + 8 } : State).complete 0 8 0)
  | accept (hl : s.lifecycle = .proposed) : Completes s .ksAccept
      (({ s.installKey (deriveKeyByte (List.replicate 4 0 ++ s.propKey.toList)) with
          lifecycle := .accepted } : State).complete 0 0 0)
  | clear {m} (hm : s.input = some m) (hlen : m.length < 12) : Completes s .ksUpdate (s.clearKey.complete 0 0 0)
  | derive {m} (hm : s.input = some m) (hlen : 12 ≤ m.length) :
      Completes s .ksUpdate ((s.installKey (deriveKeyByte m)).complete 0 0 0)
  | rkey (c : Bool) : Completes s (.ksRkey c)
      (({ s with ridx := s.advanced s.ridx c } : State).complete (resultWord (s.keyLookup s.ridx) false false) 0 0)
  | skey (c : Bool) : Completes s (.ksSkey c)
      (({ s with sidx := s.advanced s.sidx c } : State).complete (resultWord (s.keyLookup s.sidx) false false) 0 0)
  | xor (x : Byte) {m} (hm : s.input = some m) : Completes s (.frXor x)
      (({ s with obuf := s.obuf.writeSeq (xorBytes m x) } : State).complete 0 m.length 0)
  | csum {m c} (hm : s.input = some m) (hc : checksum m = some c) :
      Completes s .frCsum (s.complete (resultWord c false false) 0 0)
  | vcsum {m} (hm : s.input = some m) :
      Completes s .frVcsum (s.complete (resultWord 0 (validateChecksum m) false) 0 0)
  | decodeAbsent {m} (hm : s.input = some m) (hd : decodeFrame m = none) : Completes s .frDecode (s.complete 0 0 0)
  | decodeFrame {m f k} (hm : s.input = some m) (hd : decodeFrame m = some ⟨f, k, none⟩) : Completes s .frDecode
      (({ s with obuf := s.obuf.writeSeq f } : State).complete (resultWord k true false) f.length 0)
  | decodeSplit {m f k r} (hm : s.input = some m) (hd : decodeFrame m = some ⟨f, k, some r⟩) : Completes s .frDecode
      (({ s with obuf := s.obuf.writeSeq f, rbuf := s.rbuf.writeSeq r } : State).complete
        (resultWord k true true) f.length r.length)

/-- The command reads `IBUF[0:ILEN]` (R89). -/
def readsInput : Instr → Bool
  | .ksUpdate | .frXor _ | .frCsum | .frVcsum | .frDecode => true
  | .ksGenprop | .ksAccept | .ksRkey _ | .ksSkey _ => false

/-- Command `i` raises the fault of the code from `s`: one case per cause (R161). -/
inductive Raises (s : State) : Instr → ErrCode → Prop
  | genpropAfterAccept (hl : s.lifecycle = .accepted) : Raises s .ksGenprop .genpropAfterAccept
  | acceptNoProposal (hl : s.lifecycle ≠ .proposed) : Raises s .ksAccept .acceptNoProposal
  | uninitInput {i} (hi : readsInput i = true) (hm : s.input = none) : Raises s i .uninitInput
  | csumShort {m} (hm : s.input = some m) (hc : checksum m = none) : Raises s .frCsum .csumShort

theorem withInput_of_input {i : Instr} {s : State} {m : List Byte} (hm : s.input = some m) (run : List Byte → State) :
    withInput i s run = run m := by
  rw [withInput, hm]

theorem withInput_of_no_input {i : Instr} {s : State} (hm : s.input = none) (run : List Byte → State) :
    withInput i s run = s.raise .uninitInput (encode i) := by
  rw [withInput, hm]

theorem Raises.code_ne_none {i : Instr} {s : State} {c : ErrCode} (h : Raises s i c) : c ≠ .none := by
  cases h <;> simp

/-- A fault raised is recorded with the command's word, and that is all the command does. -/
theorem Raises.exec_eq {i : Instr} {s : State} {c : ErrCode} (h : Raises s i c) :
    exec i s = .next (s.raise c (encode i)) := by
  cases h with
  | genpropAfterAccept hl => rw [exec, execKsGenprop, hl]
  | acceptNoProposal hl =>
    rw [exec, execKsAccept]
    cases hs : s.lifecycle with
    | empty => rfl
    | proposed => exact absurd hs hl
    | accepted => rfl
  | uninitInput hi hm =>
    cases i with
    | ksGenprop | ksAccept | ksRkey | ksSkey => exact absurd hi Bool.false_ne_true
    | ksUpdate | frXor | frCsum | frVcsum | frDecode => exact congrArg Host.Outcome.next (withInput_of_no_input hm _)
  | csumShort hm hc => rw [exec, execFrCsum, withInput_of_input hm, State.finishCsum, hc]

/-- A completion is what the command answers. -/
theorem Completes.exec_eq {i : Instr} {s t : State} (h : Completes s i t) : exec i s = .next t := by
  cases h with
  | genprop hl =>
    rw [exec, execKsGenprop]
    cases hs : s.lifecycle with
    | accepted => exact absurd hs hl
    | empty => rfl
    | proposed => rfl
  | accept hl => rw [exec, execKsAccept, hl, State.updateKey, if_neg (by simp)]
  | clear hm hlen => rw [exec, execKsUpdate, withInput_of_input hm, State.updateKey, if_pos hlen]
  | derive hm hlen => rw [exec, execKsUpdate, withInput_of_input hm, State.updateKey, if_neg (by simpa using hlen)]
  | rkey c => rfl
  | skey c => rfl
  | xor x hm => rw [exec, execFrXor, withInput_of_input hm, State.finishXor]
  | csum hm hc => rw [exec, execFrCsum, withInput_of_input hm, State.finishCsum, hc]
  | vcsum hm => rw [exec, execFrVcsum, withInput_of_input hm]
  | decodeAbsent hm hd => rw [exec, execFrDecode, withInput_of_input hm, hd, State.finishDecode]
  | decodeFrame hm hd => rw [exec, execFrDecode, withInput_of_input hm, hd, State.finishDecode]
  | decodeSplit hm hd => rw [exec, execFrDecode, withInput_of_input hm, hd, State.finishDecode]

/-- Every command raises a fault or completes, from every state. -/
theorem exists_raises_or_completes (i : Instr) (s : State) : (∃ c, Raises s i c) ∨ ∃ t, Completes s i t := by
  cases i with
  | ksGenprop =>
    by_cases hl : s.lifecycle = .accepted
    · exact .inl ⟨_, .genpropAfterAccept hl⟩
    · exact .inr ⟨_, .genprop hl⟩
  | ksAccept =>
    by_cases hl : s.lifecycle = .proposed
    · exact .inr ⟨_, .accept hl⟩
    · exact .inl ⟨_, .acceptNoProposal hl⟩
  | ksRkey c => exact .inr ⟨_, .rkey c⟩
  | ksSkey c => exact .inr ⟨_, .skey c⟩
  | ksUpdate =>
    cases hm : s.input with
    | none => exact .inl ⟨_, .uninitInput rfl hm⟩
    | some m =>
      rcases Nat.lt_or_ge m.length 12 with hlen | hlen
      · exact .inr ⟨_, .clear hm hlen⟩
      · exact .inr ⟨_, .derive hm hlen⟩
  | frXor x =>
    cases hm : s.input with
    | none => exact .inl ⟨_, .uninitInput rfl hm⟩
    | some m => exact .inr ⟨_, .xor x hm⟩
  | frCsum =>
    cases hm : s.input with
    | none => exact .inl ⟨_, .uninitInput rfl hm⟩
    | some m =>
      cases hc : checksum m with
      | none => exact .inl ⟨_, .csumShort hm hc⟩
      | some c => exact .inr ⟨_, .csum hm hc⟩
  | frVcsum =>
    cases hm : s.input with
    | none => exact .inl ⟨_, .uninitInput rfl hm⟩
    | some m => exact .inr ⟨_, .vcsum hm⟩
  | frDecode =>
    cases hm : s.input with
    | none => exact .inl ⟨_, .uninitInput rfl hm⟩
    | some m =>
      rcases hd : decodeFrame m with _ | ⟨f, k, _ | r⟩
      · exact .inr ⟨_, .decodeAbsent hm hd⟩
      · exact .inr ⟨_, .decodeFrame hm hd⟩
      · exact .inr ⟨_, .decodeSplit hm hd⟩

/-- What a command that answers `t` did: it raised a fault, with its cause, or completed. -/
theorem raises_or_completes {i : Instr} {s t : State} (h : exec i s = .next t) :
    (∃ c, Raises s i c ∧ t = s.raise c (encode i)) ∨ Completes s i t := by
  rcases exists_raises_or_completes i s with ⟨c, hc⟩ | ⟨u, hu⟩
  · exact .inl ⟨c, hc, Host.Outcome.next.inj (h.symm.trans hc.exec_eq)⟩
  · obtain rfl := Host.Outcome.next.inj (h.symm.trans hu.exec_eq)
    exact .inr hu

/-! ### An invariant and the updates of a step -/

/-- `P` survives every update that a step is made of. -/
structure KeptByUpdates (P : State → Prop) : Prop where
  pending : ∀ {s} (q), P s → P { s with pending := q }
  reset : ∀ {s}, P s → P s.resetBlock
  response : ∀ {s} (r d), P s → P { s with response := r, draws := d }
  raise : ∀ {s c} (w), c ≠ .none → P s → P (s.raise c w)
  ilen : ∀ {s n}, n.toNat ≤ s.maxBuf → P s → P { s with ilen := n }
  ibuf : ∀ {s i} (b), i < s.maxBuf → P s → P { s with ibuf := s.ibuf.write i b }
  completes : ∀ {s i t}, Completes s i t → P s → P t

theorem KeptByUpdates.exec {P : State → Prop} (hP : KeptByUpdates P) {i : Instr} {s t : State} (hs : P s)
    (h : exec i s = .next t) : P t := by
  rcases raises_or_completes h with ⟨c, hc, rfl⟩ | hcomp
  · exact hP.raise _ hc.code_ne_none hs
  · exact hP.completes hcomp hs

theorem KeptByUpdates.hostRead {P : State → Prop} (hP : KeptByUpdates P) {s : State} (hs : P s) (b : Nat) (o : Word) :
    P (hostRead s b o) := by
  rcases hostRead_cases s b o with ⟨_, w, -, -, h⟩ | ⟨_, -, -, h⟩ | ⟨-, h⟩ <;> rw [h]
  · exact hP.response (some w) s.draws hs
  · exact hP.response _ _ hs
  · exact hP.response _ _ (hP.raise o (by simp) hs)

theorem KeptByUpdates.writeCtrl {P : State → Prop} (hP : KeptByUpdates P) {s : State} (hs : P s) (w : Word) :
    P (writeCtrl s w) := by
  rcases writeCtrl_cases s w with ⟨-, h⟩ | ⟨-, -, h⟩ | ⟨-, -, h⟩ <;> rw [h]
  · exact hP.raise _ (by simp) hs
  · exact hP.reset hs
  · exact hs

theorem KeptByUpdates.writeIlen {P : State → Prop} (hP : KeptByUpdates P) {s : State} (hs : P s) (w : Word) :
    P (writeIlen s w) := by
  rcases writeIlen_cases s w with ⟨-, h⟩ | ⟨hlt, hle, h⟩ <;> rw [h]
  · exact hP.raise w (by simp) hs
  · exact hP.ilen (by rwa [BitVec.toNat_setWidth, Nat.mod_eq_of_lt hlt]) hs

theorem KeptByUpdates.hostEvent {P : State → Prop} (hP : KeptByUpdates P) {s t : State} {e : HostEvent} (hs : P s)
    (h : hostEvent s e = .next t) : P t := by
  rcases hostEvent_cases h with ⟨-, rfl⟩ | ⟨b, o, -, rfl⟩ | ⟨b, o, w, -, -, hcmd⟩ | ⟨b, o, w, -, -, rfl⟩ |
    ⟨b, o, w, -, -, rfl⟩ | ⟨b, o, w, i, -, hl, rfl⟩ | ⟨b, o, w, -, rfl⟩
  · exact hP.reset hs
  · exact hP.hostRead hs b o
  · rcases hcmd with ⟨-, rfl⟩ | ⟨-, -, rfl⟩ | ⟨-, i, -, hi⟩
    · exact hs
    · exact hP.raise w (by simp) hs
    · exact hP.exec hs hi
  · exact hP.writeCtrl hs w
  · exact hP.writeIlen hs w
  · exact hP.ibuf _ (locate_ibuf hl).1 hs
  · exact hP.raise o (by simp) hs

/-- A step waits, or takes the oldest event. -/
theorem step_cases {s t : State} (h : step s = .next t) :
    (s.pending = [] ∧ t = s) ∨
      ∃ e rest, s.pending = e :: rest ∧ hostEvent { s with pending := rest } e = .next t := by
  rcases hp : s.pending with _ | ⟨e, rest⟩
  · exact .inl ⟨rfl, Host.Outcome.next.inj (h.symm.trans (step_of_idle hp))⟩
  · exact .inr ⟨e, rest, rfl, (step_of_pending hp).symm.trans h⟩

/-- An invariant that every update keeps is kept by every step. -/
theorem KeptByUpdates.step {P : State → Prop} (hP : KeptByUpdates P) {s t : State} (hs : P s)
    (h : step s = .next t) : P t := by
  rcases step_cases h with ⟨-, rfl⟩ | ⟨e, rest, -, he⟩
  · exact hs
  · exact hP.hostEvent (hP.pending rest hs) he

end Sys2Proof.Proofs
end

section
/-! SUPPORT. The invariants that every step keeps, and the state after reset (spec/10_state.md R26 to R32, R44,
spec/40_keystream.md R117). -/

namespace Sys2Proof.Proofs

open Machine

/-! ### The fault record -/

theorem Completes.faultRecord {i : Instr} {s t : State} (h : Completes s i t) :
    t.fault = s.fault ∧ t.errcode = s.errcode ∧ t.finfo = s.finfo := by
  cases h <;> exact ⟨rfl, rfl, rfl⟩

theorem faultRecordConsistent_raise {s : State} (hs : FaultRecordConsistent s) {c : ErrCode} (hc : c ≠ .none)
    (w : Word) : FaultRecordConsistent (s.raise c w) := by
  cases hf : s.fault with
  | true => rwa [State.raise_of_fault hf]
  | false =>
    rw [State.raise_of_no_fault hf]
    exact ⟨fun h => absurd h (by simp), fun _ => hc⟩

theorem faultRecordConsistent_kept : KeptByUpdates FaultRecordConsistent where
  pending _ hs := hs
  reset _ := ⟨fun _ => ⟨rfl, rfl⟩, fun h => absurd h (by simp [State.reset])⟩
  response _ _ hs := hs
  raise w hc hs := faultRecordConsistent_raise hs hc w
  ilen _ hs := hs
  ibuf _ _ hs := hs
  completes h hs := by
    obtain ⟨hf, hc, hi⟩ := h.faultRecord
    rwa [FaultRecordConsistent, hf, hc, hi]

/-- Settles O59: a fault is recorded whole, and nothing else but a reset writes the fault record. -/
theorem stepKeepsTheFaultRecord : Obligations.StepKeepsTheFaultRecord :=
  fun _ _ hs h => faultRecordConsistent_kept.step hs h

/-! ### The result word -/

@[simp] theorem resultWord_zero : resultWord 0 false false = 0 := by decide

theorem Completes.result {i : Instr} {s t : State} (h : Completes s i t) :
    ∃ b f r, t.result = resultWord b f r := by
  cases h with
  | genprop | accept | clear | derive | xor | decodeAbsent => exact ⟨0, false, false, resultWord_zero.symm⟩
  | rkey | skey | csum | vcsum | decodeFrame | decodeSplit => exact ⟨_, _, _, rfl⟩

theorem resultReservedZero_kept : KeptByUpdates ResultReservedZero where
  pending _ hs := hs
  reset _ := by simp [ResultReservedZero, State.reset]
  response _ _ hs := hs
  raise _ _ hs := by rwa [ResultReservedZero, State.raise_result]
  ilen _ hs := hs
  ibuf _ _ hs := hs
  completes h _ := by
    obtain ⟨b, f, r, hr⟩ := h.result
    apply BitVec.eq_of_toNat_eq
    rw [hr, BitVec.extractLsb'_toNat, ← BitVec.toNat_ushiftRight, resultWord_reserved]
    rfl

/-! ### The key -/

/-- A completed command leaves the table with its key byte, and the indices too where no table is held; or clears the
key; or installs one with both indices 0 (R102, R103, R105, R107). -/
theorem Completes.key {i : Instr} {s t : State} (h : Completes s i t) :
    (t.perm = s.perm ∧ t.dkey = s.dkey ∧ (s.perm = none → t.sidx = s.sidx ∧ t.ridx = s.ridx)) ∨
      (t.perm = none ∧ t.dkey = 0 ∧ t.sidx = 0 ∧ t.ridx = 0) ∨
      (t.perm = some (keySchedule t.dkey) ∧ t.sidx = 0 ∧ t.ridx = 0) := by
  cases h with
  | accept | derive => exact .inr (.inr ⟨rfl, rfl, rfl⟩)
  | clear => exact .inr (.inl ⟨rfl, rfl, rfl, rfl⟩)
  | rkey | skey => exact .inl ⟨rfl, rfl, fun hp => by simp [State.advanced, State.pv, hp]⟩
  | genprop | xor | csum | vcsum | decodeAbsent | decodeFrame | decodeSplit =>
    exact .inl ⟨rfl, rfl, fun _ => ⟨rfl, rfl⟩⟩

theorem keyReachable_kept : KeptByUpdates KeyReachable where
  pending _ hs := hs
  reset _ _ ht := absurd ht.symm (Option.some_ne_none _)
  response _ _ hs := hs
  raise _ _ hs := by simpa [KeyReachable] using hs
  ilen _ hs := hs
  ibuf _ _ hs := hs
  completes h hs := by
    rcases h.key with ⟨hp, hd, -⟩ | ⟨hp, -⟩ | ⟨hp, -⟩
    · rwa [KeyReachable, hp, hd]
    · simp [KeyReachable, hp]
    · simp [KeyReachable, hp]

theorem noKeyIsZero_kept : KeptByUpdates NoKeyIsZero where
  pending _ hs := hs
  reset _ _ := ⟨rfl, rfl, rfl⟩
  response _ _ hs := hs
  raise _ _ hs := by simpa [NoKeyIsZero] using hs
  ilen _ hs := hs
  ibuf _ _ hs := hs
  completes h hs hnone := by
    rcases h.key with ⟨hp, hd, hidx⟩ | ⟨-, hd, hsidx, hridx⟩ | ⟨hp, -⟩
    · have hsnone := hp.symm.trans hnone
      obtain ⟨hsidx, hridx⟩ := hidx hsnone
      rw [hd, hsidx, hridx]
      exact hs hsnone
    · exact ⟨hd, hsidx, hridx⟩
    · exact absurd (hp.symm.trans hnone) (Option.some_ne_none _)

/-! ### The table is a bijection -/

theorem isBijection_iff_bijective (p : PermTable) : IsBijection p ↔ Function.Bijective p.entry :=
  (Function.bijective_iff_existsUnique _).symm

theorem entry_swap (p : PermTable) (i j : Byte) :
    PermTable.entry (p.swap i.toNat j.toNat i.isLt j.isLt) = p.entry ∘ Equiv.swap i j := by
  funext k
  simp only [PermTable.entry, Function.comp_apply, Vector.getElem_swap, Equiv.swap_apply_def, BitVec.toNat_inj]
  split
  · rfl
  · split <;> rfl

theorem entry_scheduleRound_bijective {acc : Byte × PermTable} (h : Function.Bijective acc.2.entry) (d i : Byte) :
    Function.Bijective (scheduleRound d acc i).2.entry := by
  rw [scheduleRound, entry_swap]
  exact h.comp (Equiv.bijective _)

/-- Every round swaps two entries, so the schedule permutes the identity table (R109, R111). -/
theorem keySchedule_isBijection (d : Byte) : IsBijection (keySchedule d) := by
  rw [isBijection_iff_bijective, keySchedule]
  refine List.foldlRecOn allBytes (scheduleRound d) (motive := fun acc => Function.Bijective acc.2.entry) ?_
    fun acc h i _ => entry_scheduleRound_bijective h d i
  have hid : identityTable.entry = id := funext entry_identityTable
  rw [hid]
  exact Function.bijective_id

theorem tableBijective_kept : KeptByUpdates TableBijective where
  pending _ hs := hs
  reset _ _ ht := absurd ht.symm (Option.some_ne_none _)
  response _ _ hs := hs
  raise _ _ hs := by rwa [TableBijective, State.raise_perm]
  ilen _ hs := hs
  ibuf _ _ hs := hs
  completes h hs := by
    rcases h.key with ⟨hp, -⟩ | ⟨hp, -⟩ | ⟨hp, -⟩
    · rwa [TableBijective, hp]
    · simp [TableBijective, hp]
    · simp [TableBijective, hp, keySchedule_isBijection]

/-- Settles O57: a command keeps the table, drops it, or installs a key schedule. -/
theorem stepKeepsTheTableBijective : Obligations.StepKeepsTheTableBijective :=
  fun _ _ hs h => tableBijective_kept.step hs h

/-! ### The buffers -/

/-- A buffer of `n` bytes with its length: canonical, in range, and no longer than the buffer (R29, R30). -/
structure BufferLegal (n : Nat) (m : Memory) (len : Half) : Prop where
  wf : m.wf
  inRange : ∀ c ∈ m, c.1 < n
  length_le : len.toNat ≤ n

/-- An output buffer, which holds every byte below its length besides (R31). -/
structure OutputLegal (n : Nat) (m : Memory) (len : Half) : Prop extends BufferLegal n m len where
  held : ∀ i < len.toNat, ∃ b, m.read i = some b

/-- The parameter and the three buffers. -/
structure BuffersLegal (s : State) : Prop where
  parameter : ParameterLegal s
  input : BufferLegal s.maxBuf s.ibuf s.ilen
  output : OutputLegal s.maxBuf s.obuf s.olen
  remainder : OutputLegal s.maxBuf s.rbuf s.rlen

theorem buffersLegal_iff (s : State) :
    BuffersLegal s ↔
      ParameterLegal s ∧ BuffersCanonical s ∧ BuffersInRange s ∧ LengthsLegal s ∧ OutputsHeld s := by
  constructor
  · rintro ⟨hp, hi, ho, hr⟩
    exact ⟨hp, ⟨hi.wf, ho.wf, hr.wf⟩, ⟨hi.inRange, ho.inRange, hr.inRange⟩,
      ⟨hi.length_le, ho.length_le, hr.length_le⟩, ho.held, hr.held⟩
  · rintro ⟨hp, ⟨hiw, how, hrw⟩, ⟨hir, hor, hrr⟩, ⟨hil, hol, hrl⟩, hoh, hrh⟩
    exact ⟨hp, ⟨hiw, hir, hil⟩, ⟨⟨how, hor, hol⟩, hoh⟩, ⟨hrw, hrr, hrl⟩, hrh⟩

theorem bufferLegal_nil (n : Nat) : BufferLegal n [] 0 :=
  ⟨List.Pairwise.nil, fun _ h => absurd h List.not_mem_nil, Nat.zero_le n⟩

theorem BufferLegal.write {n i : Nat} {m : Memory} {len : Half} (hm : BufferLegal n m len) (hi : i < n) (b : Byte) :
    BufferLegal n (m.write i b) len where
  wf := Memory.wf_write hm.wf i b
  inRange c hc := by
    rcases Memory.mem_write hc with rfl | hc
    · exact hi
    · exact hm.inRange c hc
  length_le := hm.length_le

/-- With length 0 there is no byte to hold. -/
theorem BufferLegal.emptied {n : Nat} {m : Memory} {len : Half} (hm : BufferLegal n m len) : OutputLegal n m 0 where
  wf := hm.wf
  inRange := hm.inRange
  length_le := Nat.zero_le n
  held i hi := absurd hi (Nat.not_lt_zero i)

theorem BufferLegal.writeSeq {n : Nat} {m : Memory} {len : Half} (hm : BufferLegal n m len) {bs : List Byte}
    (hbs : bs.length ≤ n) (hn : n ≤ 16384) : OutputLegal n (m.writeSeq bs) (BitVec.ofNat 16 bs.length) := by
  have hlen : (BitVec.ofNat 16 bs.length).toNat = bs.length := by rw [BitVec.toNat_ofNat]; omega
  refine ⟨⟨Memory.wf_writeSeq hm.wf bs, fun c hc => ?_, hlen.trans_le hbs⟩, fun i hi => ?_⟩
  · rcases Memory.mem_writeSeq hc with hc | hc
    · omega
    · exact hm.inRange c hc
  · rw [hlen] at hi
    rw [Memory.read_writeSeq, if_pos hi]
    exact ⟨bs[i], List.getElem?_eq_getElem hi⟩

/-- Neither part of a decoded input is longer than the input. -/
theorem decodeFrame_length_le {m f : List Byte} {k : Byte} {o : Option (List Byte)}
    (h : decodeFrame m = some ⟨f, k, o⟩) : f.length ≤ m.length ∧ ∀ r, o = some r → r.length ≤ m.length := by
  have hwith : ∃ x, decodeWith m x = some ⟨f, k, o⟩ := by
    obtain ⟨-, x, -, hx | ⟨-, hx⟩⟩ := decodeFrame_cases h
    · exact ⟨_, hx⟩
    · exact ⟨_, hx⟩
  obtain ⟨x, hx⟩ := hwith
  obtain ⟨-, L, -, hd⟩ := (decodeWith_eq_some_iff m x _).1 hx
  obtain ⟨rfl, -, rfl⟩ := DecodedFrame.mk.inj hd
  refine ⟨by simp, fun r hr => ?_⟩
  obtain rfl : m.drop L = r := by simpa using (Option.ite_none_right_eq_some.1 hr).2
  simp

theorem BuffersLegal.completes {i : Instr} {s t : State} (h : Completes s i t) (hs : BuffersLegal s) :
    BuffersLegal t := by
  obtain ⟨⟨hleast, hgreatest⟩, hi, ho, hr⟩ := id hs
  have hinput : ∀ {m}, s.input = some m → m.length ≤ s.maxBuf := fun hm =>
    (State.input_length hm).trans_le hi.length_le
  cases h with
  | genprop => exact ⟨hs.parameter, hi, ho.writeSeq (by simp; omega) hgreatest, hr.emptied⟩
  | accept | clear | derive | rkey | skey | csum | vcsum | decodeAbsent =>
    exact ⟨hs.parameter, hi, ho.emptied, hr.emptied⟩
  | @xor x m hm =>
    have hbs := ho.writeSeq (bs := xorBytes m x) (by simpa using hinput hm) hgreatest
    rw [length_xorBytes] at hbs
    exact ⟨hs.parameter, hi, hbs, hr.emptied⟩
  | decodeFrame hm hd =>
    exact ⟨hs.parameter, hi, ho.writeSeq ((decodeFrame_length_le hd).1.trans (hinput hm)) hgreatest, hr.emptied⟩
  | decodeSplit hm hd =>
    obtain ⟨hf, hrem⟩ := decodeFrame_length_le hd
    exact ⟨hs.parameter, hi, ho.writeSeq (hf.trans (hinput hm)) hgreatest,
      hr.writeSeq ((hrem _ rfl).trans (hinput hm)) hgreatest⟩

theorem buffersLegal_kept : KeptByUpdates BuffersLegal where
  pending _ hs := ⟨hs.parameter, hs.input, hs.output, hs.remainder⟩
  reset hs := ⟨hs.parameter, bufferLegal_nil _, (bufferLegal_nil _).emptied, (bufferLegal_nil _).emptied⟩
  response _ _ hs := ⟨hs.parameter, hs.input, hs.output, hs.remainder⟩
  raise _ _ hs := by
    rw [buffersLegal_iff] at hs ⊢
    simpa [ParameterLegal, BuffersCanonical, BuffersInRange, LengthsLegal, OutputsHeld] using hs
  ilen hn hs := ⟨hs.parameter, ⟨hs.input.wf, hs.input.inRange, hn⟩, hs.output, hs.remainder⟩
  ibuf b hi hs := ⟨hs.parameter, hs.input.write hi b, hs.output, hs.remainder⟩
  completes h hs := hs.completes h

/-- Settles O56: a byte or a sequence is written within the buffer, and an output's length is that of the sequence
written. -/
theorem stepKeepsTheBuffers : Obligations.StepKeepsTheBuffers :=
  fun s t hp hc hr hl ho h =>
    ((buffersLegal_iff t).1 (buffersLegal_kept.step ((buffersLegal_iff s).2 ⟨hp, hc, hr, hl, ho⟩) h)).2

/-! ### The whole invariant -/

theorem BuffersLegal.inv {s : State} (hs : BuffersLegal s) (hfault : FaultRecordConsistent s)
    (hresult : ResultReservedZero s) (hkey : KeyReachable s) (hnone : NoKeyIsZero s) (htable : TableBijective s) :
    Inv s := by
  obtain ⟨hparam, hcanon, hrange, hlen, hheld⟩ := (buffersLegal_iff s).1 hs
  exact ⟨hparam, hcanon, hrange, hlen, hheld, hfault, hresult, hkey, hnone, htable⟩

/-- Settles O60: each part is kept by every step. -/
theorem stepKeepsTheInvariant : Obligations.StepKeepsTheInvariant := by
  intro s t hs h
  have hbuf : BuffersLegal s := (buffersLegal_iff s).2
    ⟨hs.parameterLegal, hs.buffersCanonical, hs.buffersInRange, hs.lengthsLegal, hs.outputsHeld⟩
  exact (buffersLegal_kept.step hbuf h).inv
    (faultRecordConsistent_kept.step hs.faultRecord h)
    (resultReservedZero_kept.step hs.resultReserved h)
    (keyReachable_kept.step hs.keyReachable h)
    (noKeyIsZero_kept.step hs.noKeyIsZero h)
    (tableBijective_kept.step hs.tableBijective h)

/-- Settles O55: after reset every buffer is empty, every length is 0, and no fault and no table is held. -/
theorem resetMeetsTheInvariant : Obligations.ResetMeetsTheInvariant := by
  have hbuf : BuffersLegal State.reset :=
    ⟨⟨by decide, by decide⟩, bufferLegal_nil _, (bufferLegal_nil _).emptied, (bufferLegal_nil _).emptied⟩
  have hfault : FaultRecordConsistent State.reset := ⟨fun _ => ⟨rfl, rfl⟩, fun h => absurd h Bool.false_ne_true⟩
  have hnone : ∀ p, State.reset.perm ≠ some p := fun _ h => absurd h.symm (Option.some_ne_none _)
  exact hbuf.inv hfault rfl (fun p hp => absurd hp (hnone p)) (fun _ => ⟨rfl, rfl, rfl⟩)
    fun p hp => absurd hp (hnone p)

end Sys2Proof.Proofs
end

section
/-! SUPPORT. What commands and events leave untouched and unread: earlier results, the indices without a table, the
lifecycle, the proposal (spec/10_state.md R22, R32, R47, R48). -/

namespace Sys2Proof.Proofs

open Machine

/-! ### Earlier results -/

/-- A completion overwrites the results, and no rule reads them. -/
theorem Completes.of_results {i : Instr} {s t : State} (h : Completes s i t) (r : Word) (o l : Half) :
    Completes { s with result := r, olen := o, rlen := l } i t := by
  cases h with
  | genprop hl => exact .genprop hl
  | accept hl => exact .accept hl
  | clear hm hlen => exact .clear hm hlen
  | derive hm hlen => exact .derive hm hlen
  | rkey c => exact .rkey c
  | skey c => exact .skey c
  | xor x hm => exact .xor x hm
  | csum hm hc => exact .csum hm hc
  | vcsum hm => exact .vcsum hm
  | decodeAbsent hm hd => exact .decodeAbsent hm hd
  | decodeFrame hm hd => exact .decodeFrame hm hd
  | decodeSplit hm hd => exact .decodeSplit hm hd

/-- Settles O17: a command that raises no fault completes, and a completion overwrites all the results. -/
theorem completedCommandRewritesAllResults : Obligations.CompletedCommandRewritesAllResults := by
  intro i s t r o l _ h ht
  rcases raises_or_completes h with ⟨c, -, rfl⟩ | hcomp
  · simp at ht
  · exact (hcomp.of_results r o l).exec_eq

/-! ### The indices without a table -/

theorem keyLookup_of_no_table {s : State} (h : s.perm = none) (idx : Byte) : s.keyLookup idx = 0 := by
  rw [State.keyLookup, h]

/-- Without a table a keystream command answers 0 in either direction (R104). -/
theorem rbyte_of_no_table {s t : State} {i : Instr} (hs : s.perm = none)
    (hi : (∃ c, i = .ksRkey c) ∨ ∃ c, i = .ksSkey c) (h : exec i s = .next t) : t.rbyte = 0 := by
  rcases hi with ⟨c, rfl⟩ | ⟨c, rfl⟩ <;> obtain rfl := Host.Outcome.next.inj h
  · exact (resultWord_rbyte _ _ _).trans (keyLookup_of_no_table hs _)
  · exact (resultWord_rbyte _ _ _).trans (keyLookup_of_no_table hs _)

/-- Settles O30: a table appears only where one is installed, and without one every keystream byte is 0. -/
theorem indicesAffectNoByteWithoutATable : Obligations.IndicesAffectNoByteWithoutATable := by
  intro i s t a b hs h
  constructor
  · intro ht
    rcases raises_or_completes h with ⟨c, -, rfl⟩ | hcomp
    · exact absurd (hs ▸ s.raise_perm c _) ht
    · rcases hcomp.key with ⟨hp, -⟩ | ⟨hp, -⟩ | ⟨-, hidx⟩
      · exact absurd (hp.trans hs) ht
      · exact absurd hp ht
      · exact hidx
  · intro hi
    obtain ⟨u, hu⟩ : ∃ u, exec i { s with sidx := a, ridx := b } = .next u := by
      rcases hi with ⟨c, rfl⟩ | ⟨c, rfl⟩ <;> exact ⟨_, rfl⟩
    refine ⟨u, hu, ?_⟩
    rw [rbyte_of_no_table hs hi h, rbyte_of_no_table (s := { s with sidx := a, ridx := b }) hs hi hu]

/-! ### The lifecycle -/

/-- A decoded command is made by a row that its word selects. -/
theorem exists_row_of_decode {w : Word} {i : Instr} (h : decode w = .ok i) :
    ∃ r ∈ opcodeRows, w &&& r.mask = r.pattern ∧ r.make (fieldsOf w).inc (fieldsOf w).imm8 = i := by
  unfold decode at h
  split at h
  · next r hr =>
    exact ⟨r, List.mem_of_find?_eq_some hr, by simpa [OpcodeRow.selects] using List.find?_some hr, Except.ok.inj h⟩
  · simp at h

/-- The rows of the two commands that move the lifecycle match one word each (R82). -/
theorem eq_encode_of_decode {w : Word} {i : Instr} (h : decode w = .ok i) (hi : i = .ksGenprop ∨ i = .ksAccept) :
    w = encode i := by
  obtain ⟨r, hr, hw, hmake⟩ := exists_row_of_decode h
  simp only [opcodeRows, List.mem_cons, List.not_mem_nil, or_false] at hr
  rcases hi with rfl | rfl <;>
    rcases hr with rfl | rfl | rfl | rfl | rfl | rfl | rfl | rfl | rfl <;> simp at hmake
  all_goals exact ((BitVec.and_allOnes (x := w)).symm.trans hw).trans (by decide)

/-- What a command does to the lifecycle (R22, R100, R101). -/
theorem exec_lifecycle {i : Instr} {s t : State} (h : exec i s = .next t) :
    t.lifecycle = s.lifecycle ∨ (i = .ksGenprop ∧ s.lifecycle = .empty ∧ t.lifecycle = .proposed) ∨
      (i = .ksAccept ∧ s.lifecycle = .proposed ∧ t.lifecycle = .accepted) := by
  rcases raises_or_completes h with ⟨c, -, rfl⟩ | hcomp
  · exact .inl (s.raise_lifecycle c _)
  · cases hcomp with
    | genprop hl =>
      cases hs : s.lifecycle with
      | empty => exact .inr (.inl ⟨rfl, rfl, rfl⟩)
      | proposed => exact .inl rfl
      | accepted => exact absurd hs hl
    | accept hl => exact .inr (.inr ⟨rfl, hl, rfl⟩)
    | clear | derive | rkey | skey | xor | csum | vcsum | decodeAbsent | decodeFrame | decodeSplit => exact .inl rfl

theorem hostRead_lifecycle (s : State) (b : Nat) (o : Word) : (hostRead s b o).lifecycle = s.lifecycle := by
  obtain ⟨f, c, v, r, d, h⟩ := hostRead_frame s b o
  rw [h]

theorem writeIlen_lifecycle (s : State) (w : Word) : (writeIlen s w).lifecycle = s.lifecycle := by
  rcases writeIlen_cases s w with ⟨-, h⟩ | ⟨-, -, h⟩ <;> rw [h]
  exact s.raise_lifecycle _ _

/-- A write of `CTRL` resets only with the word 1 (R36). -/
theorem writeCtrl_lifecycle (s : State) (w : Word) :
    (writeCtrl s w).lifecycle = s.lifecycle ∨ w = 1#32 := by
  rcases writeCtrl_cases s w with ⟨-, h⟩ | ⟨hw, hbit, -⟩ | ⟨-, -, h⟩
  · exact .inl (by rw [h, State.raise_lifecycle])
  · refine .inr (BitVec.eq_of_toNat_eq ?_)
    have hhigh : w.toNat / 2 = 0 := by
      rw [← Nat.shiftRight_one, ← BitVec.toNat_ushiftRight, hw]
      rfl
    have hlow : w.toNat % 2 = 1 := by simpa [BitVec.getLsbD, Nat.testBit_zero] using hbit
    simp only [BitVec.toNat_ofNat]
    omega
  · exact .inl (by rw [h])

/-- The lifecycle moves from `s` to `t` by the event `e`, a `CMD` write with no fault recorded. -/
def MovesForward (s t : State) (e : HostEvent) : Prop :=
  (s.fault = false ∧ e = .write 4 0x00000 0x00000001 ∧ s.lifecycle = .empty ∧ t.lifecycle = .proposed) ∨
    (s.fault = false ∧ e = .write 4 0x00000 0x00000002 ∧ s.lifecycle = .proposed ∧ t.lifecycle = .accepted)

theorem MovesForward.rank_le {s t : State} {e : HostEvent} (h : MovesForward s t e) :
    lifecycleRank s.lifecycle ≤ lifecycleRank t.lifecycle := by
  rcases h with ⟨-, -, hs, ht⟩ | ⟨-, -, hs, ht⟩ <;> rw [hs, ht] <;> decide

/-- An event resets, keeps the lifecycle, or is one of the two commands that move it. -/
theorem hostEvent_lifecycle {s t : State} {e : HostEvent} (h : hostEvent s e = .next t) :
    IsReset e ∨ t.lifecycle = s.lifecycle ∨ MovesForward s t e := by
  rcases hostEvent_cases h with ⟨rfl, -⟩ | ⟨b, o, -, rfl⟩ | ⟨b, o, w, rfl, hl, hcmd⟩ | ⟨b, o, w, rfl, hl, rfl⟩ |
    ⟨b, o, w, -, -, rfl⟩ | ⟨b, o, w, i, -, -, rfl⟩ | ⟨b, o, w, -, rfl⟩
  · exact .inl (.inl rfl)
  · exact .inr (.inl (hostRead_lifecycle s b o))
  · obtain ⟨rfl, rfl⟩ := locate_eq_cmd hl
    rcases hcmd with ⟨-, rfl⟩ | ⟨-, -, rfl⟩ | ⟨hf, i, hd, hi⟩
    · exact .inr (.inl rfl)
    · exact .inr (.inl (s.raise_lifecycle _ _))
    · rcases exec_lifecycle hi with hkeep | ⟨rfl, hs, ht⟩ | ⟨rfl, hs, ht⟩
      · exact .inr (.inl hkeep)
      · exact .inr (.inr (.inl ⟨hf, by rw [eq_encode_of_decode hd (.inl rfl)]; rfl, hs, ht⟩))
      · exact .inr (.inr (.inr ⟨hf, by rw [eq_encode_of_decode hd (.inr rfl)]; rfl, hs, ht⟩))
  · obtain ⟨rfl, rfl⟩ := locate_eq_ctrl hl
    rcases writeCtrl_lifecycle s w with hkeep | rfl
    · exact .inr (.inl hkeep)
    · exact .inl (.inr rfl)
  · exact .inr (.inl (writeIlen_lifecycle s w))
  · exact .inr (.inl rfl)
  · exact .inr (.inl (s.raise_lifecycle _ _))

/-- A step with the event `e` resets, keeps the lifecycle, or takes one of the two commands that move it. -/
theorem step_lifecycle {s t : State} {e : HostEvent} {rest : List HostEvent} (hp : s.pending = e :: rest)
    (h : step s = .next t) : IsReset e ∨ t.lifecycle = s.lifecycle ∨ MovesForward s t e :=
  hostEvent_lifecycle (s := { s with pending := rest }) ((step_of_pending hp).symm.trans h)

/-- Settles O33: no event but a reset moves the lifecycle, save the two commands, and they move it forward. -/
theorem lifecycleMovesForward : Obligations.LifecycleMovesForward := by
  refine ⟨fun s t e rest hp hreset h => ?_, fun s t h hne => ?_, fun i s t h hne => ?_⟩
  · rcases step_lifecycle hp h with hr | hkeep | hmove
    · exact absurd hr hreset
    · rw [hkeep]
    · exact hmove.rank_le
  · rcases step_cases h with ⟨-, rfl⟩ | ⟨e, rest, hp, -⟩
    · exact absurd rfl hne
    · exact ⟨e, rest, hp, (step_lifecycle hp h).imp_right fun hmove => hmove.resolve_left hne⟩
  · exact (exec_lifecycle h).resolve_left hne

/-! ### The proposal outside Proposed -/

theorem raise_propKey_congr (s : State) (k : Vector Byte 8) (c : ErrCode) (w : Word) :
    ({ s with propKey := k } : State).raise c w = { s.raise c w with propKey := k } := by
  unfold State.raise
  split <;> rfl

/-- No fault's cause looks at the proposal. -/
theorem Raises.of_propKey {i : Instr} {s : State} {c : ErrCode} (h : Raises s i c) (k : Vector Byte 8) :
    Raises { s with propKey := k } i c := by
  cases h with
  | genpropAfterAccept hl => exact .genpropAfterAccept hl
  | acceptNoProposal hl => exact .acceptNoProposal hl
  | uninitInput hi hm => exact .uninitInput hi hm
  | csumShort hm hc => exact .csumShort hm hc

/-- Only KS.ACCEPT from Proposed reads the proposal, and KS.GENPROP replaces it. -/
theorem Completes.of_propKey {i : Instr} {s t : State} (h : Completes s i t) (hl : s.lifecycle ≠ .proposed)
    (k : Vector Byte 8) : ∃ k', Completes { s with propKey := k } i { t with propKey := k' } := by
  cases h with
  | genprop hl => exact ⟨s.proposal, .genprop hl⟩
  | accept hl' => exact absurd hl' hl
  | clear hm hlen => exact ⟨k, .clear hm hlen⟩
  | derive hm hlen => exact ⟨k, .derive hm hlen⟩
  | rkey c => exact ⟨k, .rkey c⟩
  | skey c => exact ⟨k, .skey c⟩
  | xor x hm => exact ⟨k, .xor x hm⟩
  | csum hm hc => exact ⟨k, .csum hm hc⟩
  | vcsum hm => exact ⟨k, .vcsum hm⟩
  | decodeAbsent hm hd => exact ⟨k, .decodeAbsent hm hd⟩
  | decodeFrame hm hd => exact ⟨k, .decodeFrame hm hd⟩
  | decodeSplit hm hd => exact ⟨k, .decodeSplit hm hd⟩

theorem exec_propKey_congr {i : Instr} {s t : State} (h : exec i s = .next t) (hl : s.lifecycle ≠ .proposed)
    (k : Vector Byte 8) : ∃ k', exec i { s with propKey := k } = .next { t with propKey := k' } := by
  rcases raises_or_completes h with ⟨c, hc, rfl⟩ | hcomp
  · exact ⟨k, (hc.of_propKey k).exec_eq.trans (congrArg _ (raise_propKey_congr s k c _))⟩
  · obtain ⟨k', hk'⟩ := hcomp.of_propKey hl k
    exact ⟨k', hk'.exec_eq⟩

theorem hostRead_propKey_congr (s : State) (k : Vector Byte 8) (b : Nat) (o : Word) :
    hostRead { s with propKey := k } b o = { hostRead s b o with propKey := k } := by
  have hheld : ∀ loc, State.held { s with propKey := k } loc = s.held loc := fun loc => by cases loc <;> rfl
  simp only [hostRead]
  cases locate s.maxBuf b o with
  | none => simp only [raise_propKey_congr]; rfl
  | some loc =>
    simp only [hheld]
    cases s.held loc <;> rfl

theorem issueCommand_propKey_congr {s t : State} {w : Word} (h : issueCommand s w = .next t)
    (hl : s.lifecycle ≠ .proposed) (k : Vector Byte 8) :
    ∃ k', issueCommand { s with propKey := k } w = .next { t with propKey := k' } := by
  rcases issueCommand_cases s w with ⟨hf, h'⟩ | ⟨hf, r, hd, h'⟩ | ⟨hf, i, hd, h'⟩
  · obtain rfl := Host.Outcome.next.inj (h'.symm.trans h)
    exact ⟨k, by simp [issueCommand, hf]⟩
  · obtain rfl := Host.Outcome.next.inj (h'.symm.trans h)
    exact ⟨k, by rw [issueCommand, if_neg (by simp [hf]), hd, raise_propKey_congr]⟩
  · obtain ⟨k', hk'⟩ := exec_propKey_congr (h'.symm.trans h) hl k
    exact ⟨k', by simpa [issueCommand, hf, hd] using hk'⟩

theorem writeCtrl_propKey_congr (s : State) (k : Vector Byte 8) (w : Word) :
    ∃ k', writeCtrl { s with propKey := k } w = { writeCtrl s w with propKey := k' } := by
  unfold writeCtrl
  split
  · exact ⟨k, raise_propKey_congr s k _ _⟩
  · split
    · exact ⟨State.reset.propKey, rfl⟩
    · exact ⟨k, rfl⟩

theorem writeIlen_propKey_congr (s : State) (k : Vector Byte 8) (w : Word) :
    writeIlen { s with propKey := k } w = { writeIlen s w with propKey := k } := by
  unfold writeIlen
  simp only
  split
  · exact raise_propKey_congr s k _ _
  · rfl

theorem hostEvent_propKey_congr {s t : State} {e : HostEvent} (h : hostEvent s e = .next t)
    (hl : s.lifecycle ≠ .proposed) (k : Vector Byte 8) :
    ∃ k', hostEvent { s with propKey := k } e = .next { t with propKey := k' } := by
  cases e with
  | resetInput =>
    obtain rfl := Host.Outcome.next.inj h
    exact ⟨State.reset.propKey, rfl⟩
  | read b o =>
    obtain rfl := Host.Outcome.next.inj h
    exact ⟨k, congrArg _ (hostRead_propKey_congr s k b o)⟩
  | write b o w =>
    simp only [hostEvent, hostWrite] at h ⊢
    split at h
    · exact issueCommand_propKey_congr h hl k
    all_goals obtain rfl := Host.Outcome.next.inj h
    · obtain ⟨k', hk'⟩ := writeCtrl_propKey_congr s k w
      exact ⟨k', congrArg _ hk'⟩
    · exact ⟨k, congrArg _ (writeIlen_propKey_congr s k w)⟩
    · exact ⟨k, rfl⟩
    · exact ⟨k, congrArg _ (raise_propKey_congr s k _ _)⟩
    · exact ⟨k, congrArg _ (raise_propKey_congr s k _ _)⟩

/-- Settles O34: in the two runs every event does the same, but for KS.ACCEPT from Proposed. -/
theorem proposalIsReadOnlyInProposed : Obligations.ProposalIsReadOnlyInProposed := by
  intro s t k hl h
  rcases step_cases h with ⟨hp, rfl⟩ | ⟨e, rest, hp, he⟩
  · exact ⟨k, step_of_idle hp⟩
  · obtain ⟨k', hk'⟩ := hostEvent_propKey_congr he hl k
    exact ⟨k', (step_of_pending (s := { s with propKey := k }) hp).trans hk'⟩

end Sys2Proof.Proofs
end

section
/-! SUPPORT. The registers: reset values, `CTRL` and `ILEN`, and the words that `STATUS`, `KSTAT` and `PERMWIN` read
(spec/10_state.md R35 to R44). -/

namespace Sys2Proof.Proofs

open Machine

/-! ### One access -/

/-- What a location holds does not hang on the events to come. -/
theorem held_of_pending (s : State) (rest : List HostEvent) (loc : Location) :
    State.held { s with pending := rest } loc = s.held loc := by
  cases loc <;> rfl

/-- A read of a location that holds a word answers it and has no side effect (R63). -/
theorem step_read_of_held {s : State} {off w : Word} {rest : List HostEvent} {loc : Location}
    (hp : s.pending = .read 4 off :: rest) (hloc : locate s.maxBuf 4 off = some loc) (hw : s.held loc = some w) :
    step s = .next { s with pending := rest, response := some w } := by
  rw [step_of_pending hp]
  simp only [hostEvent, hostRead, hloc, held_of_pending, hw]

theorem step_write_of_ctrl {s : State} {w : Word} {rest : List HostEvent} (hp : s.pending = .write 4 8#32 w :: rest) :
    step s = .next (writeCtrl { s with pending := rest } w) := by
  rw [step_of_pending hp, hostEvent, hostWrite, locate_ctrl]

theorem step_write_of_ilen {s : State} {w : Word} {rest : List HostEvent} (hp : s.pending = .write 4 12#32 w :: rest) :
    step s = .next (writeIlen { s with pending := rest } w) := by
  rw [step_of_pending hp, hostEvent, hostWrite, locate_ilen]

/-- Settles O10: R44's values, and empty buffers hold no byte. -/
theorem resetValues : Obligations.ResetValues :=
  ⟨rfl, rfl, rfl, rfl, rfl, rfl, rfl, rfl, rfl, rfl, rfl, rfl, fun _ => ⟨rfl, rfl, rfl, rfl⟩⟩

/-! ### `CTRL` -/

theorem ushiftRight_one_eq_zero_iff (w : Word) : w >>> 1 = 0 ↔ w.extractLsb' 1 31 = 0 := by
  have hw := w.isLt
  rw [BitVec.toNat_eq, BitVec.toNat_eq, BitVec.toNat_ushiftRight, BitVec.extractLsb'_toNat, Nat.shiftRight_one,
    Nat.mod_eq_of_lt (by omega)]
  rfl

/-- Settles O12: a reserved bit faults; the words without one are 0 and 1. -/
theorem ctrlAccesses : Obligations.CtrlAccesses := by
  intro s w rest
  refine ⟨fun hp hw => ?_, fun hp => ?_, fun hp => ?_, fun hp => ?_⟩
  · rw [step_write_of_ctrl hp, writeCtrl, if_pos (mt (ushiftRight_one_eq_zero_iff w).1 hw), State.raise]
  · rw [step_write_of_ctrl hp]
    rfl
  · rw [step_write_of_ctrl hp]
    exact ⟨State.reset.propKey, rfl⟩
  · exact step_read_of_held hp (locate_ctrl _) rfl

/-! ### `ILEN` -/

/-- A word splits into its halves. -/
theorem toNat_eq_halves (w : Word) :
    w.toNat = (w.extractLsb' 16 16).toNat * 2 ^ 16 + (w.extractLsb' 0 16).toNat := by
  have := w.isLt
  simp only [BitVec.extractLsb'_toNat, Nat.shiftRight_eq_div_pow]
  omega

/-- Settles O54: `ILEN` takes a word whose upper half is 0 and whose lower half is at most `MAX_BUF`. -/
theorem ilenAccesses : Obligations.IlenAccesses := by
  intro s w rest
  have hw := toNat_eq_halves w
  refine ⟨fun hp => ⟨fun ⟨hhigh, hlow⟩ => ?_, fun hbad => ?_⟩, fun hp => step_read_of_held hp (locate_ilen _) rfl⟩
  · rw [hhigh] at hw
    have hin : ¬(w.toNat ≥ 2 ^ 16 ∨ w.toNat > s.maxBuf) := by
      simp only [BitVec.ofNat_eq_ofNat, BitVec.toNat_zero] at hw
      omega
    rw [step_write_of_ilen hp, writeIlen, if_neg hin]
    rfl
  · have hout : w.toNat ≥ 2 ^ 16 ∨ w.toNat > s.maxBuf := by
      rcases hbad with hhigh | hlow
      · have hpos : (w.extractLsb' 16 16).toNat ≠ 0 := fun h => hhigh (BitVec.eq_of_toNat_eq h)
        omega
      · omega
    rw [step_write_of_ilen hp, writeIlen, if_pos hout, State.raise]

/-! ### `PERMWIN` -/

/-- Settles O51: the window's offset names entry `i`. -/
theorem permwinReadsTheTable : Obligations.PermwinReadsTheTable := by
  intro s i rest hp
  have hread : step s = .next { s with pending := rest, response := some (s.permwinWord i) } :=
    step_read_of_held hp (locate_permwin _ i) rfl
  refine ⟨fun p hs => ?_, fun hs => ?_⟩
  · rw [hread, State.permwinWord, hs]
    rfl
  · rw [hread, State.permwinWord, hs]

/-! ### `STATUS` and `KSTAT` -/

/-- A field of a status word: the bits `b` from bit `m` on. -/
def bitField {v : Nat} (m : Nat) (b : BitVec v) : Word :=
  b.setWidth 32 <<< m

theorem getLsbD_bitField {v m : Nat} (b : BitVec v) {k : Nat} (hk : k < 32) :
    (bitField m b).getLsbD k = (decide (m ≤ k) && b.getLsbD (k - m)) := by
  have hlt : decide (k < m) = !decide (m ≤ k) := by
    rw [← decide_not, decide_eq_decide, Nat.not_le]
  rw [bitField, BitVec.getLsbD_shiftLeft, BitVec.getLsbD_setWidth, hlt]
  simp [hk, show k - m < 32 by omega]

theorem extractLsb'_bitField_same {v m : Nat} (b : BitVec v) (h : m + v ≤ 32) :
    (bitField m b).extractLsb' m v = b := by
  ext i hi
  rw [BitVec.getElem_extractLsb', getLsbD_bitField b (by omega)]
  simp [hi]

theorem extractLsb'_bitField_other {v m k n : Nat} (b : BitVec v) (hkn : k + n ≤ 32) (h : m + v ≤ k ∨ k + n ≤ m) :
    (bitField m b).extractLsb' k n = 0 := by
  ext i hi
  rw [BitVec.getElem_extractLsb', getLsbD_bitField b (by omega)]
  rcases h with h | h
  · simp [BitVec.getLsbD_of_ge b (k + i - m) (by omega)]
  · simp [show ¬m ≤ k + i by omega]

theorem bitWord_eq_setWidth (p : Bool) : bitWord p = (BitVec.ofBool p).setWidth 32 := by
  cases p <;> rfl

theorem statusWord_eq_fields (s : State) :
    s.statusWord = bitField 0 (BitVec.ofBool s.fault) ||| bitField 8 s.errcode.code := by
  rw [State.statusWord, bitWord_eq_setWidth, bitField, BitVec.shiftLeft_zero]
  rfl

theorem kstatWord_eq_fields (s : State) :
    s.kstatWord = bitField 0 s.lifecycle.code ||| bitField 2 (BitVec.ofBool s.pv) ||| bitField 8 s.dkey |||
      bitField 16 s.sidx ||| bitField 24 s.ridx := by
  rw [State.kstatWord, bitWord_eq_setWidth, bitField, BitVec.shiftLeft_zero]
  rfl

theorem statusWord_fields (s : State) :
    s.statusWord.extractLsb' 0 1 = BitVec.ofBool s.fault ∧ s.statusWord.extractLsb' 1 7 = 0 ∧
      s.statusWord.extractLsb' 16 16 = 0 ∧ s.statusWord.extractLsb' 8 8 = s.errcode.code := by
  rw [statusWord_eq_fields]
  simp (disch := omega) [BitVec.extractLsb'_or, extractLsb'_bitField_same, extractLsb'_bitField_other]

theorem kstatWord_fields (s : State) :
    s.kstatWord.extractLsb' 0 2 = s.lifecycle.code ∧ s.kstatWord.extractLsb' 2 1 = BitVec.ofBool s.pv ∧
      s.kstatWord.extractLsb' 3 5 = 0 ∧ s.kstatWord.extractLsb' 8 8 = s.dkey ∧
      s.kstatWord.extractLsb' 16 8 = s.sidx ∧ s.kstatWord.extractLsb' 24 8 = s.ridx := by
  rw [kstatWord_eq_fields]
  simp (disch := omega) [BitVec.extractLsb'_or, extractLsb'_bitField_same, extractLsb'_bitField_other]

/-- A one-bit field is its bit. -/
theorem getLsbD_of_extractLsb' {w : Word} {k : Nat} {p : Bool} (h : w.extractLsb' k 1 = BitVec.ofBool p) :
    w.getLsbD k = p := by
  simpa using congrArg (·.getLsbD 0) h

/-- The numbers of the codes (R161). -/
theorem errCode_mem_codes (c : ErrCode) :
    (c, c.code) ∈ [(ErrCode.none, (0 : Byte)), (.illegalCmd, 1), (.csumShort, 2), (.acceptNoProposal, 3),
      (.genpropAfterAccept, 4), (.illegalAccess, 5), (.ilenRange, 6), (.uninitInput, 7)] := by
  cases c <;> decide

/-- The numbers of the lifecycles (R22). -/
theorem lifecycle_mem_codes (l : Lifecycle) :
    (l, l.code) ∈ [(Lifecycle.empty, (0 : BitVec 2)), (.proposed, 1), (.accepted, 2)] := by
  cases l <;> decide

/-- Settles O50: both words are their fields side by side, so each field reads back. -/
theorem statusAndKstatFields : Obligations.StatusAndKstatFields := by
  intro s rest
  refine ⟨fun hp => ⟨s.statusWord, step_read_of_held hp (locate_status _) rfl, ?_⟩,
    fun hp => ⟨s.kstatWord, step_read_of_held hp (locate_kstat _) rfl, ?_⟩⟩
  · obtain ⟨hfault, hlow, hhigh, hcode⟩ := statusWord_fields s
    exact ⟨getLsbD_of_extractLsb' hfault, hlow, hhigh, hcode ▸ errCode_mem_codes s.errcode⟩
  · obtain ⟨hcode, hpv, hreserved, hdkey, hsidx, hridx⟩ := kstatWord_fields s
    exact ⟨hcode ▸ lifecycle_mem_codes s.lifecycle, getLsbD_of_extractLsb' hpv, hreserved, hdkey, hsidx, hridx⟩

end Sys2Proof.Proofs
end

section
/-! SUPPORT. The memory of the block as the host sees it: the queue of events, the input, and what accesses at mapped,
unmapped and read-only offsets do (spec/20_memory.md R61 to R75, spec/10_state.md R33, R43). -/

namespace Sys2Proof.Proofs

open Machine

/-! ### The queue and the parameter -/

theorem Completes.queue {i : Instr} {s t : State} (h : Completes s i t) :
    t.pending = s.pending ∧ t.maxBuf = s.maxBuf := by
  cases h <;> exact ⟨rfl, rfl⟩

theorem raise_queue (s : State) (c : ErrCode) (w : Word) :
    (s.raise c w).pending = s.pending ∧ (s.raise c w).maxBuf = s.maxBuf :=
  ⟨s.raise_pending c w, s.raise_maxBuf c w⟩

theorem exec_queue {i : Instr} {s t : State} (h : exec i s = .next t) :
    t.pending = s.pending ∧ t.maxBuf = s.maxBuf := by
  rcases raises_or_completes h with ⟨c, -, rfl⟩ | hcomp
  · exact raise_queue s c _
  · exact hcomp.queue

theorem hostRead_queue (s : State) (b : Nat) (o : Word) :
    (hostRead s b o).pending = s.pending ∧ (hostRead s b o).maxBuf = s.maxBuf := by
  obtain ⟨_, _, _, _, _, h⟩ := hostRead_frame s b o
  rw [h]
  exact ⟨rfl, rfl⟩

theorem writeCtrl_queue (s : State) (w : Word) :
    (writeCtrl s w).pending = s.pending ∧ (writeCtrl s w).maxBuf = s.maxBuf := by
  rcases writeCtrl_cases s w with ⟨-, h⟩ | ⟨-, -, h⟩ | ⟨-, -, h⟩ <;> rw [h]
  · exact raise_queue s _ _
  · exact ⟨rfl, rfl⟩
  · exact ⟨rfl, rfl⟩

theorem writeIlen_queue (s : State) (w : Word) :
    (writeIlen s w).pending = s.pending ∧ (writeIlen s w).maxBuf = s.maxBuf := by
  rcases writeIlen_cases s w with ⟨-, h⟩ | ⟨-, -, h⟩ <;> rw [h]
  · exact raise_queue s _ _
  · exact ⟨rfl, rfl⟩

/-- No event adds to the queue, takes from it, or writes the parameter. -/
theorem hostEvent_queue {s t : State} {e : HostEvent} (h : hostEvent s e = .next t) :
    t.pending = s.pending ∧ t.maxBuf = s.maxBuf := by
  rcases hostEvent_cases h with ⟨-, rfl⟩ | ⟨b, o, -, rfl⟩ | ⟨_, _, w, -, -, hcmd⟩ | ⟨_, _, w, -, -, rfl⟩ |
    ⟨_, _, w, -, -, rfl⟩ | ⟨_, _, _, _, -, -, rfl⟩ | ⟨_, o, _, -, rfl⟩
  · exact ⟨rfl, rfl⟩
  · exact hostRead_queue s b o
  · rcases hcmd with ⟨-, rfl⟩ | ⟨-, -, rfl⟩ | ⟨-, i, -, hi⟩
    · exact ⟨rfl, rfl⟩
    · exact raise_queue s _ w
    · exact exec_queue hi
  · exact writeCtrl_queue s w
  · exact writeIlen_queue s w
  · exact ⟨rfl, rfl⟩
  · exact raise_queue s _ o

/-- Settles O9: the step takes the head of the queue, and the event taken leaves queue and parameter alone. -/
theorem stepTakesOneEvent : Obligations.StepTakesOneEvent := by
  intro s t h
  rcases step_cases h with ⟨hp, rfl⟩ | ⟨e, rest, hp, he⟩
  · exact ⟨by rw [hp, List.tail_nil], rfl, fun _ => rfl⟩
  · obtain ⟨hq, hn⟩ := hostEvent_queue he
    exact ⟨by rw [hq, hp, List.tail_cons], hn, fun hnil => absurd (hp.symm.trans hnil) (List.cons_ne_nil _ _)⟩

/-! ### The input -/

theorem Completes.input_kept {i : Instr} {s t : State} (h : Completes s i t) : t.ibuf = s.ibuf ∧ t.ilen = s.ilen := by
  cases h <;> exact ⟨rfl, rfl⟩

/-- Settles O46: neither a fault raised nor a completion writes the input, and `IBV` is a view of `IBUF`. -/
theorem noCommandWritesTheInput : Obligations.NoCommandWritesTheInput := by
  intro i s t h
  obtain ⟨hbuf, hlen⟩ : t.ibuf = s.ibuf ∧ t.ilen = s.ilen := by
    rcases raises_or_completes h with ⟨c, -, rfl⟩ | hcomp
    · exact ⟨s.raise_ibuf c _, s.raise_ilen c _⟩
    · exact hcomp.input_kept
  exact ⟨hbuf, hlen, fun k => by rw [State.ibv, State.ibv, hbuf]⟩

/-! ### Mapped and writable offsets -/

theorem bufferLocation_eq_none_iff {n off : Nat} :
    bufferLocation n off = none ↔ ¬(0x10000 ≤ off ∧ off < 0x10000 + 4 * n) ∧
      ¬(0x20000 ≤ off ∧ off < 0x20000 + 4 * n) ∧ ¬(0x30000 ≤ off ∧ off < 0x30000 + 4 * n) := by
  refine ⟨fun h => ?_, fun ⟨h1, h2, h3⟩ => bufferLocation_eq_none h1 h2 h3⟩
  unfold bufferLocation at h
  split at h
  · exact absurd h (Option.some_ne_none _)
  · exact absurd h (Option.some_ne_none _)
  · exact absurd h (Option.some_ne_none _)
  · next h1 h2 h3 =>
    exact ⟨windowIndex_eq_none_iff.1 h1, windowIndex_eq_none_iff.1 h2, windowIndex_eq_none_iff.1 h3⟩

/-- The map of R33 as ranges: a word-aligned offset outside all of them is unmapped. -/
theorem locate_word_eq_none_iff {n : Nat} {off : Word} (h : off.toNat % 4 = 0) :
    locate n 4 off = none ↔ ¬MappedOffset n off.toNat := by
  unfold MappedOffset
  rcases locate_cases n off h with ⟨loc, hloc, -, hlow, -⟩ | ⟨hloc, hge, hle⟩ | ⟨hhigh, hloc⟩ | ⟨hlow, hhigh, hloc⟩ <;>
    rw [hloc]
  · simp only [reduceCtorEq, false_iff]
    omega
  · simp only [reduceCtorEq, false_iff]
    omega
  · rw [bufferLocation_eq_none_iff]
    omega
  · simp only [true_iff]
    omega

/-- Exactly the accesses R61 allows reach a location. -/
theorem locate_eq_none_iff {n bytes : Nat} {off : Word} :
    locate n bytes off = none ↔ bytes ≠ 4 ∨ off.toNat % 4 ≠ 0 ∨ ¬MappedOffset n off.toNat := by
  by_cases hword : bytes = 4 ∧ off.toNat % 4 = 0
  · obtain ⟨rfl, halign⟩ := hword
    rw [locate_word_eq_none_iff halign]
    simp [halign]
  · have hbad : bytes ≠ 4 ∨ off.toNat % 4 ≠ 0 := by omega
    exact iff_of_true (locate_eq_none hbad) (by omega)

theorem offset_mod_four (loc : Location) : loc.offset % 4 = 0 := by
  cases loc <;> simp only [Location.offset] <;> omega

/-- A write that the map does not allow faults (R61, R62). -/
theorem hostWrite_of_not_writable {s : State} {bytes : Nat} {off : Word}
    (h : bytes ≠ 4 ∨ off.toNat % 4 ≠ 0 ∨ ¬WritableOffset s.maxBuf off.toNat) (w : Word) :
    hostWrite s bytes off w = .next (s.raise .illegalAccess off) := by
  have hno : ∀ {loc}, locate s.maxBuf bytes off = some loc → ¬WritableOffset s.maxBuf loc.offset := by
    intro loc hloc
    obtain ⟨hbytes, hoff⟩ := offset_of_locate hloc
    rw [hoff] at h
    exact (h.resolve_left (not_not.2 hbytes)).resolve_left (not_not.2 (offset_mod_four loc))
  rcases hostWrite_cases s bytes off w with ⟨hl, -⟩ | ⟨hl, -⟩ | ⟨hl, -⟩ | ⟨i, hl, -⟩ | hfault
  · exact absurd (.inl rfl) (hno hl)
  · exact absurd (.inr (.inl rfl)) (hno hl)
  · exact absurd (.inr (.inr (.inl rfl))) (hno hl)
  · have hi := (locate_ibuf hl).1
    exact absurd (.inr (.inr (.inr (by simp only [Location.offset]; omega)))) (hno hl)
  · exact hfault

theorem hostRead_of_unmapped {s : State} {bytes : Nat} {off : Word} (h : locate s.maxBuf bytes off = none) :
    hostRead s bytes off = (s.raise .illegalAccess off).respondDraw (Config.drawWord s.draws) := by
  rw [hostRead, h]

/-- Settles O47: such a write reaches no writable location, and such a read no location at all. -/
theorem illegalAccessesFault : Obligations.IllegalAccessesFault := by
  intro s bytes off w rest _ hf
  have hraise : ({ s with pending := rest } : State).raise .illegalAccess off =
      { s with pending := rest, fault := true, errcode := .illegalAccess, finfo := off } :=
    State.raise_of_no_fault (s := { s with pending := rest }) hf _ _
  refine ⟨fun hp hbad => ?_, fun hp hbad => ?_⟩
  · rw [step_of_pending hp, hostEvent, hostWrite_of_not_writable (s := { s with pending := rest }) hbad, hraise]
  · have hnone := locate_eq_none_iff.2 hbad
    rw [step_of_pending hp, hostEvent, hostRead_of_unmapped (s := { s with pending := rest }) hnone, hraise,
      State.respondDraw]

/-! ### Reads -/

/-- A read of a location that holds no word answers a drawn byte (R63). -/
theorem step_read_of_not_held {s : State} {off : Word} {rest : List HostEvent} {loc : Location}
    (hp : s.pending = .read 4 off :: rest) (hloc : locate s.maxBuf 4 off = some loc) (hw : s.held loc = none) :
    step s = .next { s with
      pending := rest, response := some (Byte.toWord (Config.drawByte s.draws)), draws := s.draws + 1 } := by
  rw [step_of_pending hp]
  simp only [hostEvent, hostRead, hloc, held_of_pending, hw]
  rfl

/-- Settles O48: the answer is the word held or a draw, and nothing else is written. -/
theorem legalReadHasNoSideEffect : Obligations.LegalReadHasNoSideEffect := by
  intro s t off rest _ hp halign hmapped h
  obtain ⟨loc, hloc⟩ : ∃ loc, locate s.maxBuf 4 off = some loc :=
    Option.ne_none_iff_exists'.1 fun hnone => (locate_word_eq_none_iff halign).1 hnone hmapped
  cases hw : s.held loc with
  | some w =>
    obtain rfl := Host.Outcome.next.inj (h.symm.trans (step_read_of_held hp hloc hw))
    exact ⟨w, rfl⟩
  | none =>
    obtain rfl := Host.Outcome.next.inj (h.symm.trans (step_read_of_not_held hp hloc hw))
    exact ⟨_, rfl⟩

/-- The word a buffer location holds is its readable byte, if it has one (R43, R63). -/
theorem exists_buffer_location {s : State} {i base : Nat} {held : Option Byte} (hs : ParameterLegal s)
    (hi : i < s.maxBuf)
    (h : (base, held) ∈ [(0x10000, s.ibuf.read i), (0x20000, if i < s.olen.toNat then s.obuf.read i else none),
      (0x30000, if i < s.rlen.toNat then s.rbuf.read i else none)]) :
    ∃ loc, locate s.maxBuf 4 (BitVec.ofNat 32 (base + 4 * i)) = some loc ∧ s.held loc = held.map Byte.toWord := by
  obtain ⟨hibuf, hobuf, hrbuf⟩ := locate_buffer hs.2 hi
  simp only [List.mem_cons, Prod.mk.injEq, List.not_mem_nil, or_false] at h
  rcases h with ⟨rfl, rfl⟩ | ⟨rfl, rfl⟩ | ⟨rfl, rfl⟩
  · exact ⟨_, hibuf, rfl⟩
  · exact ⟨_, hobuf, by rw [State.held, apply_ite (Option.map Byte.toWord), Option.map_none]⟩
  · exact ⟨_, hrbuf, by rw [State.held, apply_ite (Option.map Byte.toWord), Option.map_none]⟩

/-- Settles O52: the window's offset names the byte, which answers itself where readable and a draw elsewhere. -/
theorem bufferReads : Obligations.BufferReads := by
  intro s i base held rest hs hi hbase hp
  obtain ⟨loc, hloc, hheld⟩ := exists_buffer_location hs hi hbase
  refine ⟨fun b hb => ?_, fun hnone => ?_⟩
  · exact step_read_of_held hp hloc (by rw [hheld, hb]; rfl)
  · exact step_read_of_not_held hp hloc (by rw [hheld, hnone]; rfl)

/-- Settles O49: each offset names its register, which holds the word (R34, R37 to R39, R41). -/
theorem registerReads : Obligations.RegisterReads := by
  intro s off w rest hp h
  simp only [List.mem_cons, Prod.mk.injEq, List.not_mem_nil, or_false] at h
  rcases h with ⟨rfl, rfl⟩ | ⟨rfl, rfl⟩ | ⟨rfl, rfl⟩ | ⟨rfl, rfl⟩ | ⟨rfl, rfl⟩ | ⟨rfl, rfl⟩
  · exact step_read_of_held hp (locate_cmd _) rfl
  · exact step_read_of_held hp (locate_ilen _) rfl
  · exact step_read_of_held hp (locate_olen _) rfl
  · exact step_read_of_held hp (locate_rlen _) rfl
  · exact step_read_of_held hp (locate_result _) rfl
  · exact step_read_of_held hp (locate_finfo _) rfl

/-! ### Writes of the input -/

theorem step_write_of_ibuf {s : State} {off w : Word} {rest : List HostEvent} {i : Nat}
    (hp : s.pending = .write 4 off w :: rest) (hloc : locate s.maxBuf 4 off = some (.ibuf i)) :
    step s = .next { s with pending := rest, ibuf := s.ibuf.write i (w.setWidth 8) } := by
  rw [step_of_pending hp, hostEvent, hostWrite, hloc]

/-- Settles O53: the window's offset names byte `i`, and a read after the write sees that byte and no other changed. -/
theorem inputByteWrite : Obligations.InputByteWrite := by
  intro s i w rest hs hi hp
  have hread : (s.ibuf.write i (w.setWidth 8)).read i = some (w.setWidth 8) := Memory.read_write_same _ _ _
  refine ⟨_, step_write_of_ibuf hp (locate_buffer hs.2 hi).1, ?_, ?_, fun j hj => ?_, rfl⟩
  · rw [← BitVec.setWidth_eq_extractLsb' (by omega)]
    exact hread
  · exact Option.isSome_of_eq_some hread
  · exact Memory.read_write_other _ hj _

end Sys2Proof.Proofs
end

section
/-! SUPPORT. The command word as its fields: a row of the opcode table is selected exactly by the words whose fields are
those of the command it makes (spec/30_encoding.md R81 to R83); and a step on a host write to `CMD` (R89). -/

namespace Sys2Proof.Proofs

open Machine

/-! ### A word and its fields -/

theorem getLsbD_eq_of_extractLsb'_eq {v w : Word} {k n : Nat} (h : v.extractLsb' k n = w.extractLsb' k n) {i : Nat}
    (hk : k ≤ i) (hn : i < k + n) : v.getLsbD i = w.getLsbD i := by
  have hi : i - k < n := by omega
  simpa [BitVec.getLsbD_extractLsb', hi, hk] using congrArg (·.getLsbD (i - k)) h

/-- The five fields make up the whole word (R81). -/
theorem fieldsOf_injective : Function.Injective fieldsOf := by
  intro v w h
  obtain ⟨hop, hinc, hrsv0, himm8, hrsv1⟩ := CommandFields.mk.inj h
  refine BitVec.eq_of_getLsbD_eq fun i hi => ?_
  rcases (by omega : i < 8 ∨ i = 8 ∨ 9 ≤ i ∧ i < 16 ∨ 16 ≤ i ∧ i < 24 ∨ 24 ≤ i) with
    hlt | rfl | ⟨hle, hlt⟩ | ⟨hle, hlt⟩ | hle
  · exact getLsbD_eq_of_extractLsb'_eq hop (Nat.zero_le i) (by omega)
  · exact hinc
  · exact getLsbD_eq_of_extractLsb'_eq hrsv0 hle hlt
  · exact getLsbD_eq_of_extractLsb'_eq himm8 hle hlt
  · exact getLsbD_eq_of_extractLsb'_eq hrsv1 hle hi

theorem fieldsOf_and (v w : Word) :
    fieldsOf (v &&& w) =
      ⟨(fieldsOf v).op &&& (fieldsOf w).op, (fieldsOf v).inc && (fieldsOf w).inc,
        (fieldsOf v).rsv0 &&& (fieldsOf w).rsv0, (fieldsOf v).imm8 &&& (fieldsOf w).imm8,
        (fieldsOf v).rsv1 &&& (fieldsOf w).rsv1⟩ := by
  simp [fieldsOf, BitVec.extractLsb'_and]

/-! ### A command and its fields -/

/-- The assembled word of a command carries its fields. -/
theorem encoded (i : Instr) : Laws.Encoded.Statement i := by
  cases i with
  | ksGenprop => exact Laws.Encoded.ksGenprop
  | ksAccept => exact Laws.Encoded.ksAccept
  | ksUpdate => exact Laws.Encoded.ksUpdate
  | ksRkey inc => exact Laws.Encoded.ksRkey inc
  | ksSkey inc => exact Laws.Encoded.ksSkey inc
  | frXor imm8 => exact Laws.Encoded.frXor imm8
  | frCsum => exact Laws.Encoded.frCsum
  | frVcsum => exact Laws.Encoded.frVcsum
  | frDecode => exact Laws.Encoded.frDecode

theorem fieldsOf_encode (i : Instr) : fieldsOf (encode i) = i.fields :=
  (encoded i).1

theorem wellFormed_fields (i : Instr) : i.fields.wellFormed = true :=
  fieldsOf_encode i ▸ (encoded i).2

/-! ### The opcode table -/

theorem selects_iff (r : OpcodeRow) (w : Word) :
    r.selects w = true ↔ fieldsOf (w &&& r.mask) = fieldsOf r.pattern := by
  rw [OpcodeRow.selects, beq_iff_eq, fieldsOf_injective.eq_iff]

/-- A row's mask keeps the fields its command does not carry, and its pattern is what they must be (R82). -/
theorem selects_iff_fields {r : OpcodeRow} (hr : r ∈ opcodeRows) (w : Word) :
    r.selects w = true ↔ fieldsOf w = (r.make (fieldsOf w).inc (fieldsOf w).imm8).fields := by
  have hbyte (b : Byte) : b &&& 255#8 = b := BitVec.and_allOnes
  have hrsv0 (b : BitVec 7) : b &&& 127#7 = b := BitVec.and_allOnes
  rw [selects_iff, fieldsOf_and]
  generalize fieldsOf w = f
  obtain ⟨op, inc, rsv0, imm8, rsv1⟩ := f
  simp only [opcodeRows, List.mem_cons, List.not_mem_nil, or_false] at hr
  rcases hr with rfl | rfl | rfl | rfl | rfl | rfl | rfl | rfl | rfl <;> simp [fieldsOf, Instr.fields, hbyte, hrsv0]

/-- Every command has its row. -/
theorem exists_row_of_instr (i : Instr) : ∃ r ∈ opcodeRows, r.make i.fields.inc i.fields.imm8 = i := by
  cases i <;> simp [opcodeRows, Instr.fields]

/-- The rows have different operation codes. -/
theorem nodup_op_pattern : (opcodeRows.map fun r => (fieldsOf r.pattern).op).Nodup := by decide

/-- Every row fixes the whole operation code. -/
theorem op_of_selects {r : OpcodeRow} (hr : r ∈ opcodeRows) {w : Word} (h : r.selects w = true) :
    (fieldsOf w).op = (fieldsOf r.pattern).op := by
  have hmask : ∀ r ∈ opcodeRows, (fieldsOf r.mask).op = BitVec.allOnes 8 := by decide
  rw [← (selects_iff r w).1 h, fieldsOf_and, hmask r hr, BitVec.and_allOnes]

/-- Settles O3: a word's operation code is that of any row it selects, and the rows' differ. -/
theorem atMostOneRowMatches : Obligations.AtMostOneRowMatches :=
  (List.pairwise_map.1 nodup_op_pattern).imp_of_mem fun ha hb hne _ ⟨hwa, hwb⟩ =>
    hne ((op_of_selects ha hwa).symm.trans (op_of_selects hb hwb))

/-- The table's order does not matter: a word decodes by whichever row it selects (R82). -/
theorem decode_of_selects {r : OpcodeRow} (hr : r ∈ opcodeRows) {w : Word} (h : r.selects w = true) :
    decode w = .ok (r.make (fieldsOf w).inc (fieldsOf w).imm8) := by
  cases hfind : opcodeRows.find? (·.selects w) with
  | none => exact absurd h (List.find?_eq_none.1 hfind r hr)
  | some q =>
    have hq : q ∈ opcodeRows := List.mem_of_find?_eq_some hfind
    have hselq : q.selects w = true := List.find?_some (p := fun r : OpcodeRow => r.selects w) hfind
    have hop := (op_of_selects hq hselq).symm.trans (op_of_selects hr h)
    have hqr : q = r := List.inj_on_of_nodup_map nodup_op_pattern hq hr hop
    rw [decode, hfind, hqr]

/-- A word decodes to the command whose fields it carries, and to no other (R82). -/
theorem decode_eq_ok_iff {w : Word} {i : Instr} : decode w = .ok i ↔ fieldsOf w = i.fields := by
  constructor
  · intro h
    obtain ⟨r, hr, hw, rfl⟩ := exists_row_of_decode h
    exact (selects_iff_fields hr w).1 (beq_iff_eq.2 hw)
  · intro h
    obtain ⟨r, hr, hmake⟩ := exists_row_of_instr i
    have hsel : r.selects w = true := (selects_iff_fields hr w).2 (by rw [h, hmake])
    rw [decode_of_selects hr hsel, h, hmake]

/-- Settles O1: the assembled word carries the command's fields. -/
theorem decodeEncodeRoundTrip : Obligations.DecodeEncodeRoundTrip :=
  fun i => decode_eq_ok_iff.2 (fieldsOf_encode i)

/-- Settles O2: the word and the assembled word carry the same fields, so they are the same word. -/
theorem decodedWordIsTheAssembledWord : Obligations.DecodedWordIsTheAssembledWord :=
  fun _ i h => fieldsOf_injective ((fieldsOf_encode i).trans (decode_eq_ok_iff.1 h).symm)

/-- Settles O5: each word is the assembled word of its command. -/
theorem tableWordsDecode : Obligations.TableWordsDecode :=
  ⟨decodeEncodeRoundTrip .ksGenprop, decodeEncodeRoundTrip .ksAccept, decodeEncodeRoundTrip .ksUpdate,
    decodeEncodeRoundTrip (.ksRkey true), decodeEncodeRoundTrip (.ksSkey false), decodeEncodeRoundTrip (.frXor 0xA5),
    decodeEncodeRoundTrip .frCsum, decodeEncodeRoundTrip .frVcsum, decodeEncodeRoundTrip .frDecode⟩

/-! ### Illegal words -/

/-- Legal fields are those of the command that some row makes of them. -/
theorem exists_row_of_wellFormed {f : CommandFields} (h : f.wellFormed = true) :
    ∃ r ∈ opcodeRows, f = (r.make f.inc f.imm8).fields := by
  obtain ⟨op, inc, rsv0, imm8, rsv1⟩ := f
  simp only [CommandFields.wellFormed, CommandFields.opAssigned, CommandFields.incUsed, CommandFields.imm8Used,
    Bool.and_eq_true, Bool.or_eq_true, Bool.not_eq_true', beq_iff_eq, decide_eq_true_eq, List.mem_cons,
    List.not_mem_nil, or_false] at h
  obtain ⟨⟨⟨⟨hop, rfl⟩, rfl⟩, hinc⟩, himm8⟩ := h
  rcases hop with rfl | rfl | rfl | rfl | rfl | rfl | rfl | rfl | rfl <;> simp_all [opcodeRows, Instr.fields]

/-- The legal fields are those of the commands (R83). -/
theorem wellFormed_iff_exists_fields (f : CommandFields) : f.wellFormed = true ↔ ∃ i : Instr, f = i.fields := by
  refine ⟨fun h => ?_, fun ⟨i, hi⟩ => hi ▸ wellFormed_fields i⟩
  obtain ⟨r, -, hr⟩ := exists_row_of_wellFormed h
  exact ⟨_, hr⟩

/-- The words that decode to no command are those whose fields are not legal (R83). -/
theorem exists_decode_eq_error_iff (w : Word) : (∃ e, decode w = .error e) ↔ ¬(fieldsOf w).wellFormed = true := by
  simp only [wellFormed_iff_exists_fields, ← decode_eq_ok_iff]
  cases decode w <;> simp

/-- The operation codes of R82 as numbers. -/
theorem opAssigned_iff (f : CommandFields) :
    f.opAssigned = true ↔ ¬(f.op.toNat = 0x00 ∨ (0x06 ≤ f.op.toNat ∧ f.op.toNat ≤ 0x0F) ∨ 0x14 ≤ f.op.toNat) := by
  simp only [CommandFields.opAssigned, decide_eq_true_eq, List.mem_cons, List.not_mem_nil, or_false,
    BitVec.toNat_eq, BitVec.reduceToNat]
  omega

theorem incUsed_iff (f : CommandFields) :
    f.incUsed = true ↔ ¬(f.inc = true ∧ f.op.toNat ≠ 0x04 ∧ f.op.toNat ≠ 0x05) := by
  simp only [CommandFields.incUsed, Bool.or_eq_true, Bool.not_eq_true', beq_iff_eq, BitVec.toNat_eq,
    BitVec.reduceToNat]
  cases f.inc with
  | false => simp
  | true => simp; omega

theorem imm8Used_iff (f : CommandFields) : f.imm8Used = true ↔ ¬(f.imm8 ≠ 0 ∧ f.op.toNat ≠ 0x10) := by
  simp [CommandFields.imm8Used, BitVec.toNat_eq, or_iff_not_imp_left]

/-- R83's ways to be illegal, one clause each. -/
theorem not_wellFormed_iff (f : CommandFields) :
    ¬f.wellFormed = true ↔
      f.op.toNat = 0x00 ∨ (0x06 ≤ f.op.toNat ∧ f.op.toNat ≤ 0x0F) ∨ 0x14 ≤ f.op.toNat ∨ f.rsv0 ≠ 0 ∨ f.rsv1 ≠ 0 ∨
        (f.inc = true ∧ f.op.toNat ≠ 0x04 ∧ f.op.toNat ≠ 0x05) ∨ (f.imm8 ≠ 0 ∧ f.op.toNat ≠ 0x10) := by
  simp only [CommandFields.wellFormed, Bool.and_eq_true, beq_iff_eq, opAssigned_iff, incUsed_iff, imm8Used_iff]
  tauto

/-! ### The step on a host write to `CMD` -/

theorem step_write_of_cmd {s : State} {w : Word} {rest : List HostEvent} (hp : s.pending = .write 4 0#32 w :: rest) :
    step s = issueCommand { s with pending := rest } w := by
  rw [step_of_pending hp, hostEvent, hostWrite, locate_cmd]

theorem issueCommand_of_ok {s : State} {w : Word} {i : Instr} (hf : s.fault = false) (hd : decode w = .ok i) :
    issueCommand s w = exec i s := by
  simp [issueCommand, hf, hd]

theorem issueCommand_of_error {s : State} {w : Word} {e : DecodeReject} (hf : s.fault = false)
    (hd : decode w = .error e) :
    issueCommand s w = .next { s with fault := true, errcode := .illegalCmd, finfo := w } := by
  simp [issueCommand, hf, hd, State.raise_of_no_fault hf]

/-- Settles O4: the words that do not decode are those with fields that are not legal, and issuing one records it. -/
theorem illegalWordsFaultIllegalCmd : Obligations.IllegalWordsFaultIllegalCmd := by
  intro w op illegal
  have hiff : (∃ e, decode w = .error e) ↔ illegal :=
    (exists_decode_eq_error_iff w).trans (not_wellFormed_iff (fieldsOf w))
  refine ⟨hiff, fun hill s rest hp hf => ?_⟩
  obtain ⟨e, he⟩ := hiff.2 hill
  exact (step_write_of_cmd hp).trans (issueCommand_of_error hf he)

/-- Settles O6: with no fault recorded the block issues what the word decodes to. -/
theorem stepRunsTheDecodedCommand : Obligations.StepRunsTheDecodedCommand :=
  fun _ _ _ _ hp hf hd => (step_write_of_cmd hp).trans (issueCommand_of_ok hf hd)

/-! ### Unwritten input -/

/-- Settles O18: the five commands read the input, and one with a byte never written is no input. -/
theorem unwrittenInputFaults : Obligations.UnwrittenInputFaults := by
  intro i s hi hf hk
  have hreads : readsInput i = true := by
    rcases hi with rfl | ⟨x, rfl⟩ | rfl | rfl | rfl <;> rfl
  have hnone : s.input = none := (Memory.readSeq_eq_none_iff s.ibuf s.ilen.toNat).2 hk
  rw [(Raises.uninitInput hreads hnone).exec_eq, State.raise_of_no_fault hf]

end Sys2Proof.Proofs
end

section
/-! SUPPORT. The Keystream Unit: the proposal and its acceptance, key derivation, the key schedule, the keystream
bytes, and what the two units do not read of each other (spec/40_keystream.md R100 to R117). -/

namespace Sys2Proof.Proofs

open Machine

/-! ### The key every step keeps -/

/-- Settles O58: a table is installed with its key byte, and dropped with key byte and indices 0. -/
theorem stepKeepsTheKeyReachable : Obligations.StepKeepsTheKeyReachable :=
  fun _ _ hreach hzero h => ⟨keyReachable_kept.step hreach h, noKeyIsZero_kept.step hzero h⟩

/-! ### The key schedule (R109) -/

/-- Settles O23: every round swaps two entries. -/
theorem keyScheduleIsBijective : Obligations.KeyScheduleIsBijective :=
  keySchedule_isBijection

/-- The running index and the table before round `n` of the key schedule. -/
def roundState (d : Byte) (n : Nat) : Byte × PermTable :=
  (List.range n).foldl (fun acc i => scheduleRound d acc (BitVec.ofNat 8 i)) (0, identityTable)

theorem roundState_succ (d : Byte) (n : Nat) :
    roundState d (n + 1) = scheduleRound d (roundState d n) (BitVec.ofNat 8 n) := by
  rw [roundState, List.range_succ, List.foldl_append, List.foldl_cons, List.foldl_nil, roundState]

theorem keySchedule_eq_roundState (d : Byte) : keySchedule d = (roundState d 256).2 := by
  rw [keySchedule, allBytes, List.foldl_map, roundState]

theorem scheduleRound_index (d : Byte) (acc : Byte × PermTable) (i : Byte) :
    (scheduleRound d acc i).1 = acc.1 + acc.2.entry i + d :=
  rfl

/-- A round swaps the entries at its number and at the new index. -/
theorem entry_scheduleRound (d : Byte) (acc : Byte × PermTable) (i : Byte) :
    (scheduleRound d acc i).2.entry = acc.2.entry ∘ Equiv.swap i (scheduleRound d acc i).1 :=
  entry_swap acc.2 i (scheduleRound d acc i).1

theorem ofNat_ne_of_toNat_ne {i : Nat} (hi : i < 256) {b : Byte} (h : i ≠ b.toNat) : BitVec.ofNat 8 i ≠ b := by
  rintro rfl
  exact h (BitVec.toNat_ofNat i 8 ▸ (Nat.mod_eq_of_lt hi).symm)

/-- Settles O24: the numbers are those of the running index and of the table's entries, round by round. -/
theorem keyScheduleFollowsTheRounds : Obligations.KeyScheduleFollowsTheRounds := by
  intro d
  refine ⟨fun n i => ((roundState d n).2.entry (BitVec.ofNat 8 i)).toNat, fun n => (roundState d n).1.toNat,
    rfl, fun i hi => ?_, fun n hn => ?_, fun i => ?_⟩
  · have hid : (roundState d 0).2 = identityTable := rfl
    simp only [hid, entry_identityTable, BitVec.toNat_ofNat]
    omega
  · simp only [roundState_succ, entry_scheduleRound, Function.comp_apply, BitVec.ofNat_toNat, BitVec.setWidth_eq,
      Equiv.swap_apply_left, Equiv.swap_apply_right, true_and]
    refine ⟨by simp [scheduleRound_index, BitVec.toNat_add], fun i hi hin hij => ?_⟩
    rw [Equiv.swap_apply_of_ne_of_ne (ofNat_ne_of_toNat_ne hi (by simpa [Nat.mod_eq_of_lt hn] using hin))
      (ofNat_ne_of_toNat_ne hi hij)]
  · simp only [keySchedule_eq_roundState, BitVec.ofNat_toNat, BitVec.setWidth_eq, PermTable.entry]

/-! ### The key byte (R108) -/

/-- Bits put in place one by one read back at their places. -/
theorem getLsbD_foldl_bits (f : Nat → Bool) (n : Nat) {k : Nat} (hk : k < 8) :
    ((List.range n).foldl (fun d i => d ||| ((BitVec.ofBool (f i)).setWidth 8 <<< i)) (0 : Byte)).getLsbD k =
      (decide (k < n) && f k) := by
  induction n with
  | zero => simp
  | succ n ih =>
    rw [List.range_succ, List.foldl_append, List.foldl_cons, List.foldl_nil, BitVec.getLsbD_or, ih,
      BitVec.getLsbD_shiftLeft, BitVec.getLsbD_setWidth, BitVec.getLsbD_ofBool]
    rcases Nat.lt_trichotomy k n with h | rfl | h
    · simp [h, Nat.lt_succ_of_lt h]
    · simp [hk]
    · simp [Nat.not_lt.2 h.le, Nat.not_lt.2 (Nat.succ_le_of_lt h), Nat.sub_ne_zero_of_lt h]

theorem getLsbD_deriveKeyByte (p : List Byte) {k : Nat} (hk : k < 8) :
    (deriveKeyByte p).getLsbD k = (p.getD (4 + k) 0).getLsbD 3 := by
  rw [deriveKeyByte, getLsbD_foldl_bits _ _ hk, decide_eq_true hk, Bool.true_and]

/-- Settles O22: a packet of 12 bytes or more has all the bytes `4+k`. -/
theorem keyByteIsBitThreeOfTheKeyBytes : Obligations.KeyByteIsBitThreeOfTheKeyBytes := by
  intro p hp k hk
  have hlt : 4 + k < p.length := by omega
  exact ⟨p[4 + k], List.getElem?_eq_getElem hlt, by rw [getLsbD_deriveKeyByte p hk, List.getD_eq_getElem p 0 hlt]⟩

/-! ### Proposal, acceptance and update (R100, R101, R110) -/

theorem getElem_proposal (s : State) (k : Nat) (hk : k < 8) : s.proposal[k] = Config.drawByte (s.draws + k) := by
  interval_cases k <;> rfl

/-- Settles O19: the draws are written to both places, or the fault is recorded with the command's word. -/
theorem genpropStoresTheDraws : Obligations.GenpropStoresTheDraws := by
  refine fun s => ⟨decodeEncodeRoundTrip .ksGenprop, fun hl => ⟨_, (Completes.genprop hl).exec_eq, ?_, ?_, rfl⟩,
    fun hl hf => ?_⟩
  · intro k hk
    refine ⟨getElem_proposal s k hk, ?_⟩
    rw [State.complete_obuf, Memory.read_writeSeq, if_pos (by simpa using hk)]
    simp [hk]
  · intro k hk
    rw [State.complete_obuf, Memory.read_writeSeq, if_neg (by simpa using hk)]
  · rw [(Raises.genpropAfterAccept hl).exec_eq, State.raise_of_no_fault hf]
    rfl

/-- Settles O20: the packet derived from is four zero bytes and the proposal. -/
theorem acceptDerivesFromTheProposal : Obligations.AcceptDerivesFromTheProposal := by
  refine fun s => ⟨decodeEncodeRoundTrip .ksAccept, fun hl => ⟨_, (Completes.accept hl).exec_eq, ?_, rfl⟩,
    fun hl hf => ?_⟩
  · intro k hk
    rw [State.complete_dkey, State.installKey_dkey, getLsbD_deriveKeyByte _ hk,
      List.getD_append_right _ _ _ _ (by simp)]
    simp [hk]
  · rw [(Raises.acceptNoProposal hl).exec_eq, State.raise_of_no_fault hf]
    rfl

theorem exists_input_of_inputHeld {s : State} (h : InputHeld s) : ∃ m, s.input = some m := by
  rcases hm : s.input with _ | m
  · obtain ⟨k, hk, hnone⟩ := (Memory.readSeq_eq_none_iff s.ibuf s.ilen.toNat).1 hm
    obtain ⟨b, hb⟩ := h k hk
    exact absurd (hnone.symm.trans hb) (Option.some_ne_none b).symm
  · exact ⟨m, rfl⟩

/-- Settles O21: the input's length decides between the two paths. -/
theorem updateDerivesOrClears : Obligations.UpdateDerivesOrClears := by
  intro s hs
  obtain ⟨m, hm⟩ := exists_input_of_inputHeld hs
  have hlen := State.input_length hm
  refine ⟨decodeEncodeRoundTrip .ksUpdate, fun hlt => (Completes.clear hm (hlen.trans_lt hlt)).exec_eq,
    fun hle => ⟨_, (Completes.derive hm (hle.trans_eq hlen.symm)).exec_eq, fun k hk => ?_, rfl⟩⟩
  obtain ⟨b, hb, hbit⟩ := keyByteIsBitThreeOfTheKeyBytes m (hle.trans_eq hlen.symm) k hk
  exact ⟨b, (State.input_getElem? hm (by omega)).trans hb, hbit⟩

/-- Settles O31: the input decides the path and the key, and KS.UPDATE leaves the input. -/
theorem updateIsIdempotent : Obligations.UpdateIsIdempotent := by
  intro s₁ s₂ t₁ t₂ m hm₁ hm₂ h₁ h₂
  rcases Nat.lt_or_ge m.length 12 with hlen | hlen
  · obtain rfl := Host.Outcome.next.inj ((Completes.clear hm₁ hlen).exec_eq.symm.trans h₁)
    obtain rfl := Host.Outcome.next.inj ((Completes.clear hm₂ hlen).exec_eq.symm.trans h₂)
    exact ⟨rfl, rfl, rfl, rfl, rfl, rfl, (Completes.clear (s := s₁.clearKey.complete 0 0 0) hm₁ hlen).exec_eq⟩
  · obtain rfl := Host.Outcome.next.inj ((Completes.derive hm₁ hlen).exec_eq.symm.trans h₁)
    obtain rfl := Host.Outcome.next.inj ((Completes.derive hm₂ hlen).exec_eq.symm.trans h₂)
    exact ⟨rfl, rfl, rfl, rfl, rfl, rfl,
      (Completes.derive (s := (s₁.installKey (deriveKeyByte m)).complete 0 0 0) hm₁ hlen).exec_eq⟩

/-! ### The keystream bytes (R104 to R107) -/

theorem keyLookup_of_table {s : State} {p : PermTable} (h : s.perm = some p) (idx : Byte) :
    s.keyLookup idx = p.entry idx := by
  rw [State.keyLookup, h]

theorem advanced_of_table {s : State} {p : PermTable} (h : s.perm = some p) (idx : Byte) (inc : Bool) :
    s.advanced idx inc = if inc then idx + 1 else idx := by
  rw [State.advanced, State.pv, h]
  rfl

theorem advanced_of_no_table {s : State} (h : s.perm = none) (idx : Byte) (inc : Bool) : s.advanced idx inc = idx := by
  rw [State.advanced, State.pv, h]
  rfl

/-- A byte addition wraps modulo 256 (R9). -/
theorem byte_advance_eq_mod (b : Byte) (inc : Bool) :
    (if inc then b + 1 else b) = BitVec.ofNat 8 ((b.toNat + if inc then 1 else 0) % 256) := by
  apply BitVec.eq_of_toNat_eq
  cases inc with
  | false => simp [Nat.mod_eq_of_lt b.isLt]
  | true => simp [BitVec.toNat_add]

theorem resultWord_of_byte (b : Byte) : resultWord b false false = b.setWidth 32 := by
  simp [resultWord, bitWord, Byte.toWord]

/-- Settles O25: the byte looked up and the index advanced, with a table and without. -/
theorem rkeyReadsThenAdvances : Obligations.RkeyReadsThenAdvances := by
  refine fun s inc => ⟨?_, fun p hp => ?_, fun hp => ?_⟩
  · cases inc with
    | false => exact decodeEncodeRoundTrip (.ksRkey false)
    | true => exact decodeEncodeRoundTrip (.ksRkey true)
  · rw [(Completes.rkey inc).exec_eq, advanced_of_table hp, byte_advance_eq_mod, keyLookup_of_table hp,
      resultWord_of_byte]
    rfl
  · rw [(Completes.rkey inc).exec_eq, advanced_of_no_table hp, keyLookup_of_no_table hp, resultWord_zero]
    rfl

/-- Settles O26: the byte looked up and the index advanced, with a table and without. -/
theorem skeyReadsThenAdvances : Obligations.SkeyReadsThenAdvances := by
  refine fun s inc => ⟨?_, fun p hp => ?_, fun hp => ?_⟩
  · cases inc with
    | false => exact decodeEncodeRoundTrip (.ksSkey false)
    | true => exact decodeEncodeRoundTrip (.ksSkey true)
  · rw [(Completes.skey inc).exec_eq, advanced_of_table hp, byte_advance_eq_mod, keyLookup_of_table hp,
      resultWord_of_byte]
    rfl
  · rw [(Completes.skey inc).exec_eq, advanced_of_no_table hp, keyLookup_of_no_table hp, resultWord_zero]
    rfl

/-- Settles O32: each direction's rule names its own index only. -/
theorem directionsAreIndependent : Obligations.DirectionsAreIndependent := by
  intro s t inc v
  constructor
  · intro h
    obtain rfl := Host.Outcome.next.inj ((Completes.rkey inc).exec_eq.symm.trans h)
    exact ⟨rfl, (Completes.rkey (s := { s with sidx := v }) inc).exec_eq⟩
  · intro h
    obtain rfl := Host.Outcome.next.inj ((Completes.skey inc).exec_eq.symm.trans h)
    exact ⟨rfl, (Completes.skey (s := { s with ridx := v }) inc).exec_eq⟩

/-- While the table `p` is held, the command answers the table's byte at the index `idx`, then advances that index. -/
def ReadsThenAdvances (i : Instr) (idx : State → Byte) (p : PermTable) : Prop :=
  ∀ s, s.perm = some p →
    ∃ t, exec i s = .next t ∧ t.perm = some p ∧ t.rbyte = p.entry (idx s) ∧ idx t = idx s + 1

theorem rkey_readsThenAdvances (p : PermTable) : ReadsThenAdvances (.ksRkey true) State.ridx p := fun _ hp =>
  ⟨_, (Completes.rkey true).exec_eq, hp, (resultWord_rbyte _ _ _).trans (keyLookup_of_table hp _),
    advanced_of_table hp _ true⟩

theorem skey_readsThenAdvances (p : PermTable) : ReadsThenAdvances (.ksSkey true) State.sidx p := fun _ hp =>
  ⟨_, (Completes.skey true).exec_eq, hp, (resultWord_rbyte _ _ _).trans (keyLookup_of_table hp _),
    advanced_of_table hp _ true⟩

theorem repeatCommand_succ {i : Instr} {n : Nat} {s t : State} (h : repeatCommand i n s = .next t) :
    repeatCommand i (n + 1) s = exec i t := by
  rw [repeatCommand, h]

/-- From index 0, the command repeated reads entry after entry. -/
theorem ReadsThenAdvances.repeatCommand {i : Instr} {idx : State → Byte} {p : PermTable}
    (hi : ReadsThenAdvances i idx p) {s : State} (hp : s.perm = some p) (hidx : idx s = 0) (n : Nat) :
    ∃ t, repeatCommand i (n + 1) s = .next t ∧ t.perm = some p ∧ t.rbyte = p.entry (BitVec.ofNat 8 n) ∧
      idx t = BitVec.ofNat 8 (n + 1) := by
  induction n with
  | zero =>
    obtain ⟨t, ht, htp, hbyte, hnext⟩ := hi s hp
    rw [hidx] at hbyte hnext
    exact ⟨t, (repeatCommand_succ rfl).trans ht, htp, hbyte, hnext⟩
  | succ n ih =>
    obtain ⟨t, ht, htp, -, htidx⟩ := ih
    obtain ⟨u, hu, hup, hbyte, hnext⟩ := hi t htp
    rw [htidx] at hbyte hnext
    exact ⟨u, (repeatCommand_succ ht).trans hu, hup, hbyte, hnext.trans (BitVec.ofNat_add_ofNat _ _)⟩

theorem entry_ofNat (p : PermTable) (n : Nat) : p.entry (BitVec.ofNat 8 n) = p[n % 256]'(Nat.mod_lt n (by decide)) :=
  rfl

/-- Settles O27: each advancing command reads the entry at its index, and the index wraps where the table ends. -/
theorem keystreamRotatesThroughTheTable : Obligations.KeystreamRotatesThroughTheTable := by
  intro s p n hp
  constructor
  · intro hidx
    obtain ⟨t, ht, -, hbyte, hnext⟩ := (rkey_readsThenAdvances p).repeatCommand hp hidx n
    exact ⟨t, ht, hbyte.trans (entry_ofNat p n), hnext⟩
  · intro hidx
    obtain ⟨t, ht, -, hbyte, hnext⟩ := (skey_readsThenAdvances p).repeatCommand hp hidx n
    exact ⟨t, ht, hbyte.trans (entry_ofNat p n), hnext⟩

/-- A completed command keeps the table held, or is one of those that derive or clear the key. -/
theorem Completes.perm {i : Instr} {s t : State} (h : Completes s i t) :
    t.perm = s.perm ∨ t.perm = none ∨ i = .ksAccept ∨ (i = .ksUpdate ∧ 12 ≤ s.ilen.toNat) := by
  cases h with
  | accept => exact .inr (.inr (.inl rfl))
  | derive hm hlen => exact .inr (.inr (.inr ⟨rfl, hlen.trans_eq (State.input_length hm)⟩))
  | clear => exact .inr (.inl rfl)
  | genprop | rkey | skey | xor | csum | vcsum | decodeAbsent | decodeFrame | decodeSplit => exact .inl rfl

/-- Settles O29: a lookup without a table answers 0, and no other command's completion puts a table where none was. -/
theorem noTableAnswersZeroUntilADerive : Obligations.NoTableAnswersZeroUntilADerive := by
  intro s hs
  refine ⟨fun inc => ⟨?_, ?_⟩, fun i t h ht => ?_⟩
  · have h := (Completes.rkey (s := s) inc).exec_eq
    exact ⟨_, h, rbyte_of_no_table hs (.inl ⟨inc, rfl⟩) h⟩
  · have h := (Completes.skey (s := s) inc).exec_eq
    exact ⟨_, h, rbyte_of_no_table hs (.inr ⟨inc, rfl⟩) h⟩
  · rcases raises_or_completes h with ⟨c, -, rfl⟩ | hcomp
    · exact absurd ((s.raise_perm c _).trans hs) ht
    · rcases hcomp.perm with hp | hp | hi
      · exact absurd (hp.trans hs) ht
      · exact absurd hp ht
      · exact hi

/-! ### The units are separate (R116) -/

/-- `s` with the Keystream Unit state of `u`. -/
def withKeystreamOf (s u : State) : State :=
  { s with lifecycle := u.lifecycle, propKey := u.propKey, dkey := u.dkey, perm := u.perm, sidx := u.sidx,
           ridx := u.ridx }

/-- The command is one of the Framer Unit. -/
def IsFramer (i : Instr) : Prop :=
  (∃ x, i = .frXor x) ∨ i = .frCsum ∨ i = .frVcsum ∨ i = .frDecode

theorem raise_withKeystreamOf (s u : State) (c : ErrCode) (w : Word) :
    (withKeystreamOf s u).raise c w = withKeystreamOf (s.raise c w) u := by
  unfold State.raise withKeystreamOf
  split <;> rfl

theorem Raises.withKeystreamOf {i : Instr} {s : State} {c : ErrCode} (h : Raises s i c) (hi : IsFramer i) (u : State) :
    Raises (withKeystreamOf s u) i c := by
  cases h with
  | genpropAfterAccept | acceptNoProposal => simp [IsFramer] at hi
  | uninitInput hreads hm => exact .uninitInput hreads hm
  | csumShort hm hc => exact .csumShort hm hc

theorem Completes.withKeystreamOf {i : Instr} {s t : State} (h : Completes s i t) (hi : IsFramer i) (u : State) :
    Completes (withKeystreamOf s u) i (withKeystreamOf t u) := by
  cases h with
  | genprop | accept | clear | derive | rkey | skey => simp [IsFramer] at hi
  | xor x hm => exact .xor x hm
  | csum hm hc => exact .csum hm hc
  | vcsum hm => exact .vcsum hm
  | decodeAbsent hm hd => exact .decodeAbsent hm hd
  | decodeFrame hm hd => exact .decodeFrame hm hd
  | decodeSplit hm hd => exact .decodeSplit hm hd

/-- A framer command reads no Keystream Unit state. -/
theorem exec_withKeystreamOf {i : Instr} {s t : State} (hi : IsFramer i) (h : exec i s = .next t) (u : State) :
    exec i (withKeystreamOf s u) = .next (withKeystreamOf t u) := by
  rcases raises_or_completes h with ⟨c, hc, rfl⟩ | hcomp
  · rw [(hc.withKeystreamOf hi u).exec_eq, raise_withKeystreamOf]
  · exact (hcomp.withKeystreamOf hi u).exec_eq

/-- A framer command writes no Keystream Unit state: with its own state put back, the command leaves what it left. -/
theorem eq_withKeystreamOf_of_exec {i : Instr} {s t : State} (hi : IsFramer i) (h : exec i s = .next t) :
    t = withKeystreamOf t s :=
  Host.Outcome.next.inj (h.symm.trans (exec_withKeystreamOf hi h s))

/-- The command is one of the Keystream Unit. -/
def IsKeystream (i : Instr) : Prop :=
  i = .ksGenprop ∨ i = .ksAccept ∨ i = .ksUpdate ∨ (∃ c, i = .ksRkey c) ∨ ∃ c, i = .ksSkey c

/-- `s` with `o` in `OBUF` and `r` in `RBUF`. -/
def withOutputBuffers (s : State) (o r : Memory) : State :=
  { s with obuf := o, rbuf := r }

theorem raise_withOutputBuffers (s : State) (o r : Memory) (c : ErrCode) (w : Word) :
    (withOutputBuffers s o r).raise c w = withOutputBuffers (s.raise c w) o r := by
  unfold State.raise withOutputBuffers
  split <;> rfl

/-- No fault's cause looks at the output buffers. -/
theorem Raises.withOutputBuffers {i : Instr} {s : State} {c : ErrCode} (h : Raises s i c) (o r : Memory) :
    Raises (withOutputBuffers s o r) i c := by
  cases h with
  | genpropAfterAccept hl => exact .genpropAfterAccept hl
  | acceptNoProposal hl => exact .acceptNoProposal hl
  | uninitInput hreads hm => exact .uninitInput hreads hm
  | csumShort hm hc => exact .csumShort hm hc

/-- KS.GENPROP replaces the first bytes of `OBUF` whatever they were; the other keystream commands leave both output
buffers alone. -/
theorem Completes.withOutputBuffers {i : Instr} {s t : State} (h : Completes s i t) (hi : IsKeystream i)
    (o r : Memory) :
    ∃ o', Completes (withOutputBuffers s o r) i (withOutputBuffers t o' r) ∧
      ∀ a, o'.read a = if i = .ksGenprop ∧ s.lifecycle ≠ .accepted ∧ a < 8 then t.obuf.read a else o.read a := by
  cases h with
  | xor | csum | vcsum | decodeAbsent | decodeFrame | decodeSplit => simp [IsKeystream] at hi
  | genprop hl =>
    refine ⟨o.writeSeq s.proposal.toList, .genprop hl, fun a => ?_⟩
    rw [State.complete_obuf, Memory.read_writeSeq, Memory.read_writeSeq, Vector.length_toList]
    by_cases ha : a < 8 <;> simp [ha, hl]
  | accept hl => exact ⟨o, .accept hl, fun a => by simp⟩
  | clear hm hlen => exact ⟨o, .clear hm hlen, fun a => by simp⟩
  | derive hm hlen => exact ⟨o, .derive hm hlen, fun a => by simp⟩
  | rkey c => exact ⟨o, .rkey c, fun a => by simp⟩
  | skey c => exact ⟨o, .skey c, fun a => by simp⟩

theorem Completes.rbuf_kept {i : Instr} {s t : State} (h : Completes s i t) (hi : IsKeystream i) : t.rbuf = s.rbuf := by
  cases h with
  | xor | csum | vcsum | decodeAbsent | decodeFrame | decodeSplit => simp [IsKeystream] at hi
  | genprop | accept | clear | derive | rkey | skey => rfl

/-- Settles O45: neither a fault's cause nor a completion looks at the other unit's side. -/
theorem unitsAreSeparate : Obligations.UnitsAreSeparate := by
  constructor
  · intro i s t hi h
    have ht := eq_withKeystreamOf_of_exec hi h
    refine ⟨?_, fun l k d p a b =>
      exec_withKeystreamOf hi h { s with lifecycle := l, propKey := k, dkey := d, perm := p, sidx := a, ridx := b }⟩
    rw [ht]
    exact ⟨rfl, rfl, rfl, rfl, rfl, rfl⟩
  · intro i s t hi h
    rcases raises_or_completes h with ⟨c, hc, rfl⟩ | hcomp
    · refine ⟨s.raise_rbuf c _, fun o r => ⟨o, (hc.withOutputBuffers o r).exec_eq.trans
        (congrArg Host.Outcome.next (raise_withOutputBuffers s o r c _)), fun a => ?_⟩⟩
      rw [if_neg]
      rintro ⟨rfl, hl, -⟩
      cases hc with
      | genpropAfterAccept hl' => exact hl hl'
      | uninitInput hreads => simp [readsInput] at hreads
    · refine ⟨hcomp.rbuf_kept hi, fun o r => ?_⟩
      obtain ⟨o', hcomp', hread⟩ := hcomp.withOutputBuffers hi o r
      exact ⟨o', hcomp'.exec_eq, hread⟩

end Sys2Proof.Proofs
end

section
/-! SUPPORT. The Framer Unit: the statements' frames are those the checksum engine accepts, a decode is the frame under
the first candidate key that is valid, and what each framer command leaves (spec/41_framer.md R130 to R144). -/

namespace Sys2Proof.Proofs

open Machine

/-! ### The XOR transform (R130) -/

theorem xorBytes_xorBytes (m : List Byte) (x : Byte) : xorBytes (xorBytes m x) x = m := by
  simp [xorBytes, Function.comp_def]

theorem xorBytes_append (m n : List Byte) (x : Byte) : xorBytes (m ++ n) x = xorBytes m x ++ xorBytes n x :=
  List.map_append

/-! ### Checksums and frames (R85, R132, R134) -/

theorem toNat_byteSum (m : List Byte) : (byteSum m).toNat = (m.map BitVec.toNat).sum % 256 := by
  induction m using List.reverseRecOn with
  | nil => rfl
  | append_singleton m b ih =>
    have hsum : byteSum (m ++ [b]) = byteSum m + b := List.foldl_append
    rw [hsum, BitVec.toNat_add, ih]
    simp

theorem eq_byteSum_take_iff (m : List Byte) (n : Nat) (c : Byte) :
    c = byteSum (m.take n) ↔ c.toNat = sumMod256 m n := by
  rw [sumMod256, ← toNat_byteSum, BitVec.toNat_inj]

theorem declaresFrame_iff (m : List Byte) (L : Nat) : DeclaresFrame m L ↔ frameLength m = some L ∧ L ≤ m.length := by
  rw [frameLength_eq_some_iff, DeclaresFrame]
  constructor
  · rintro ⟨b, hb, hL, hle⟩
    exact ⟨⟨b, hb, hL⟩, hle⟩
  · rintro ⟨⟨b, hb, hL⟩, hle⟩
    exact ⟨b, hb, hL, hle⟩

theorem checksum_eq_some_iff_declaresFrame (m : List Byte) (c : Byte) :
    checksum m = some c ↔ ∃ L, DeclaresFrame m L ∧ c.toNat = sumMod256 m (L - 1) := by
  simp only [checksum_eq_some_iff, declaresFrame_iff, eq_byteSum_take_iff, and_assoc]

theorem validateChecksum_iff_validFrame (m : List Byte) : validateChecksum m = true ↔ ∃ L, ValidFrame m L := by
  simp only [validateChecksum_iff, ValidFrame, declaresFrame_iff, ← eq_byteSum_take_iff, exists_eq_right, and_assoc]

/-! ### One candidate key (R136, R140) -/

theorem frameLength_of_validUnder {m : List Byte} {x : Byte} {L : Nat} (h : ValidUnder m x L) :
    frameLength (xorBytes m x) = some L :=
  ((declaresFrame_iff _ L).1 h.1).1

theorem le_length_of_validUnder {m : List Byte} {x : Byte} {L : Nat} (h : ValidUnder m x L) : L ≤ m.length :=
  length_xorBytes m x ▸ ((declaresFrame_iff _ L).1 h.1).2

/-- The frame of length `L` under the key `x`, with what follows it in the raw buffer. -/
def deframed (m : List Byte) (x : Byte) (L : Nat) : DecodedFrame :=
  ⟨(xorBytes m x).take L, x, if L < m.length then some (m.drop L) else none⟩

theorem decodeWith_of_validUnder {m : List Byte} {x : Byte} {L : Nat} (h : ValidUnder m x L) :
    decodeWith m x = some (deframed m x L) :=
  (decodeWith_eq_some_iff m x _).2 ⟨(validateChecksum_iff_validFrame _).2 ⟨L, h⟩, L, frameLength_of_validUnder h, rfl⟩

theorem decodeWith_of_not_validUnder {m : List Byte} {x : Byte} (h : ¬∃ L, ValidUnder m x L) : decodeWith m x = none :=
  if_neg (mt (validateChecksum_iff_validFrame _).1 h)

/-- Flipping the low bit of a byte moves it by 1. -/
theorem toNat_xor_one (b : Byte) : (b ^^^ 1).toNat = b.toNat + 1 ∨ b.toNat = (b ^^^ 1).toNat + 1 := by
  have hxor : (b ^^^ 1).toNat = b.toNat ^^^ 1 := rfl
  rw [hxor]
  rcases Nat.even_or_odd b.toNat with h | h
  · exact .inl (Nat.xor_one_of_even h)
  · have hpos := h.pos
    rw [Nat.xor_one_of_odd h]
    omega

/-- Settles O42: the length bytes under the two candidates differ in the low bit. -/
theorem candidateLengthsDifferByOne : Obligations.CandidateLengthsDifferByOne := by
  intro m x L₁ L₂ h₁ h₂
  obtain ⟨_, hb₁, rfl⟩ := (frameLength_eq_some_iff _ _).1 h₁
  obtain ⟨_, hb₂, rfl⟩ := (frameLength_eq_some_iff _ _).1 h₂
  rw [getElem?_xorBytes, Option.map_eq_some_iff] at hb₁ hb₂
  obtain ⟨b, hb, rfl⟩ := hb₁
  obtain ⟨c, hc, rfl⟩ := hb₂
  obtain rfl := Option.some.inj (hb.symm.trans hc)
  have hone := toNat_xor_one (b ^^^ x)
  rw [BitVec.xor_assoc] at hone
  omega

/-! ### Decode (R136) -/

/-- FR.DECODE finds in `m` a frame of length `L` under the key `y`: the first candidate, or the fallback where the first
fails. -/
def DecodesUnder (m : List Byte) (y : Byte) (L : Nat) : Prop :=
  4 ≤ m.length ∧ ∃ x, m[2]? = some x ∧
    ((y = x ∧ ValidUnder m x L) ∨ (y = x ^^^ 1 ∧ (¬∃ K, ValidUnder m x K) ∧ ValidUnder m (x ^^^ 1) L))

theorem DecodesUnder.validUnder {m : List Byte} {y : Byte} {L : Nat} (h : DecodesUnder m y L) : ValidUnder m y L := by
  obtain ⟨-, x, -, ⟨rfl, hv⟩ | ⟨rfl, -, hv⟩⟩ := h
  · exact hv
  · exact hv

theorem decodeFrame_of_long {m : List Byte} {x : Byte} (hlen : 4 ≤ m.length) (hx : m[2]? = some x) :
    decodeFrame m = (decodeWith m x).or (decodeWith m (x ^^^ 1)) := by
  rw [decodeFrame, if_neg (Nat.not_lt.2 hlen)]
  simp only [hx]
  cases decodeWith m x <;> rfl

theorem decodeFrame_of_decodesUnder {m : List Byte} {y : Byte} {L : Nat} (h : DecodesUnder m y L) :
    decodeFrame m = some (deframed m y L) := by
  obtain ⟨hlen, x, hx, ⟨rfl, hv⟩ | ⟨rfl, hfirst, hv⟩⟩ := h
  · rw [decodeFrame_of_long hlen hx, decodeWith_of_validUnder hv, Option.some_or]
  · rw [decodeFrame_of_long hlen hx, decodeWith_of_not_validUnder hfirst, decodeWith_of_validUnder hv, Option.none_or]

theorem decodeFrame_of_short {m : List Byte} (h : m.length < 4) : decodeFrame m = none :=
  if_pos h

theorem decodeFrame_of_invalid {m : List Byte} {x : Byte} (hx : m[2]? = some x) (hfirst : ¬∃ L, ValidUnder m x L)
    (hfallback : ¬∃ L, ValidUnder m (x ^^^ 1) L) : decodeFrame m = none := by
  rcases Nat.lt_or_ge m.length 4 with hlen | hlen
  · exact decodeFrame_of_short hlen
  · rw [decodeFrame_of_long hlen hx, decodeWith_of_not_validUnder hfirst, decodeWith_of_not_validUnder hfallback,
      Option.none_or]

/-- Every decode has its result: absent, or a frame under one of the two candidates. -/
theorem decodeFrame_eq_none_or_decodesUnder (m : List Byte) : decodeFrame m = none ∨ ∃ y L, DecodesUnder m y L := by
  rcases Nat.lt_or_ge m.length 4 with hlen | hlen
  · exact .inl (decodeFrame_of_short hlen)
  have hx : m[2]? = some m[2] := List.getElem?_eq_getElem (by omega)
  by_cases hfirst : ∃ L, ValidUnder m m[2] L
  · obtain ⟨L, hv⟩ := hfirst
    exact .inr ⟨_, L, hlen, _, hx, .inl ⟨rfl, hv⟩⟩
  by_cases hfallback : ∃ L, ValidUnder m (m[2] ^^^ 1) L
  · obtain ⟨L, hv⟩ := hfallback
    exact .inr ⟨_, L, hlen, _, hx, .inr ⟨rfl, hfirst, hv⟩⟩
  · exact .inl (decodeFrame_of_invalid hx hfirst hfallback)

/-- The first bytes of a buffer decide whether it starts with a valid frame. -/
theorem validFrame_append {f : List Byte} {L : Nat} (h : ValidFrame f L) (rest : List Byte) :
    ValidFrame (f ++ rest) L := by
  obtain ⟨⟨n, hn, hL, hle⟩, c, hc, hsum⟩ := h
  have hget {i : Nat} {b : Byte} (hb : f[i]? = some b) : (f ++ rest)[i]? = some b := by
    rw [List.getElem?_append_left (List.getElem?_eq_some_iff.1 hb).1, hb]
  refine ⟨⟨n, hget hn, hL, ?_⟩, c, hget hc, ?_⟩
  · rw [List.length_append]; omega
  · rw [hsum, sumMod256, sumMod256, List.take_append_of_le_length (by omega)]

/-- Settles O43: under the key `k` the buffer starts with the frame, and byte 2 makes `k` the first candidate or the
fallback. -/
theorem decodeSplitsFrameAndRemainder : Obligations.DecodeSplitsFrameAndRemainder := by
  intro f rest k hf hlen hbyte
  have hxor : xorBytes (xorBytes f k ++ rest) k = f ++ xorBytes rest k := by
    rw [xorBytes_append, xorBytes_xorBytes]
  have hvalid : ValidUnder (xorBytes f k ++ rest) k f.length := by
    rw [ValidUnder, ← xorBytes, hxor]
    exact validFrame_append hf _
  have htwo {b : Byte} (hb : f[2]? = some b) : (xorBytes f k ++ rest)[2]? = some (b ^^^ k) := by
    have hlt : 2 < f.length := (List.getElem?_eq_some_iff.1 hb).1
    rw [List.getElem?_append_left (by simpa using hlt), getElem?_xorBytes, hb, Option.map_some]
  have hdec : DecodesUnder (xorBytes f k ++ rest) k f.length := by
    refine ⟨by simpa using hlen, ?_⟩
    rcases hbyte with h0 | ⟨h1, hfirst⟩
    · exact ⟨k, by simpa using htwo h0, .inl ⟨rfl, hvalid⟩⟩
    · have hk : k ^^^ 1 ^^^ 1 = k := by simp
      refine ⟨k ^^^ 1, by rw [htwo h1, BitVec.xor_comm], .inr ⟨hk.symm, hfirst, ?_⟩⟩
      rwa [hk]
  rw [decodeFrame_of_decodesUnder hdec, deframed, hxor]
  cases rest <;> simp

/-! ### FR.XOR (R131, R142) -/

/-- FR.XOR's word carries its byte in bits [23:16] (R82). -/
theorem encode_frXor (x : Byte) : encode (.frXor x) = 0x10#32 ||| (x.setWidth 32 <<< 16) := by
  simp [encode, Instr.fields, Byte.toWord]

/-- Settles O35: the transformed input is written from index 0 of `OBUF`. -/
theorem xorTransformsTheWholeInput : Obligations.XorTransformsTheWholeInput := by
  intro s x hs
  obtain ⟨m, hm⟩ := exists_input_of_inputHeld hs
  have hlen := State.input_length hm
  refine ⟨encode_frXor x ▸ decodeEncodeRoundTrip (.frXor x), _, (Completes.xor x hm).exec_eq, fun i hi => ?_,
    fun i hi => ?_, ?_⟩
  · obtain ⟨b, hb⟩ := hs i hi
    refine ⟨b, hb, ?_⟩
    rw [State.complete_obuf, Memory.read_writeSeq, if_pos (by simpa [hlen] using hi), getElem?_xorBytes,
      ← State.input_getElem? hm hi, hb, Option.map_some]
  · rw [State.complete_obuf, Memory.read_writeSeq, if_neg (by simpa [hlen] using hi)]
  · simp [State.complete, hlen]

/-- Settles O44: FR.XOR leaves the transformed input in `OBUF`, of the input's length. -/
theorem xorIsAnInvolution : Obligations.XorIsAnInvolution := by
  refine ⟨fun m x => ⟨xorBytes_xorBytes m x, by rw [xorBytes_xorBytes]⟩, fun s t u v x m hm ht hilen hibuf hv => ?_⟩
  obtain rfl := Host.Outcome.next.inj ((Completes.xor x hm).exec_eq.symm.trans ht)
  have hlen := State.input_length hm
  have hulen : u.ilen = s.ilen := by rw [hilen, State.complete_olen, hlen, BitVec.ofNat_toNat, BitVec.setWidth_eq]
  have hu : u.input = some (xorBytes m x) := by
    refine (Memory.readSeq_eq_some_iff _ _ _).2 ⟨by rw [length_xorBytes, hlen, hulen], fun i hi => ?_⟩
    rw [hibuf i hi, State.complete_obuf, Memory.read_writeSeq, if_pos (by simpa [hlen, hulen] using hi)]
  obtain rfl := Host.Outcome.next.inj ((Completes.xor x hu).exec_eq.symm.trans hv)
  refine ⟨by simp [hlen], fun i hi => ?_⟩
  rw [State.complete_obuf, xorBytes_xorBytes, Memory.read_writeSeq, if_pos (hlen ▸ hi), State.input_getElem? hm hi]

/-! ### FR.CSUM and FR.VCSUM (R133, R135) -/

/-- Settles O36: the checksum exists exactly where the declared frame is held whole. -/
theorem csumSumsTheDeclaredFrame : Obligations.CsumSumsTheDeclaredFrame := by
  refine fun s m hm => ⟨decodeEncodeRoundTrip .frCsum, fun L hL => ?_, fun hnone hf => ?_⟩
  · have hsum : (byteSum (m.take (L - 1))).toNat = sumMod256 m (L - 1) := (eq_byteSum_take_iff m _ _).1 rfl
    have hc := (checksum_eq_some_iff_declaresFrame m _).2 ⟨L, hL, hsum⟩
    rw [(Completes.csum hm hc).exec_eq, resultWord_of_byte, ← hsum, BitVec.ofNat_toNat]
    rfl
  · have hc : checksum m = none := Option.eq_none_iff_forall_ne_some.2 fun c hc =>
      have ⟨L, hL, _⟩ := (checksum_eq_some_iff_declaresFrame m c).1 hc
      hnone ⟨L, hL⟩
    rw [(Raises.csumShort hm hc).exec_eq, State.raise_of_no_fault hf]
    rfl

/-- Settles O37: the checksum engine accepts exactly the valid frames. -/
theorem vcsumAcceptsExactlyValidFrames : Obligations.VcsumAcceptsExactlyValidFrames := by
  refine fun s m hm => ⟨decodeEncodeRoundTrip .frVcsum, fun h => ?_, fun h => ?_⟩
  · rw [(Completes.vcsum hm).exec_eq, (validateChecksum_iff_validFrame m).2 h]
    rfl
  · rw [(Completes.vcsum hm).exec_eq, Bool.eq_false_iff.2 (mt (validateChecksum_iff_validFrame m).1 h)]
    rfl

/-! ### FR.DECODE (R137) -/

theorem writeSeq_nil (m : Memory) : m.writeSeq [] = m := by
  simp [Memory.writeSeq, Memory.cellsFrom]

/-- What FR.DECODE leaves of `s` on the input `m` with a frame of length `L` under the key `y`. -/
def decodedState (s : State) (m : List Byte) (y : Byte) (L : Nat) : State :=
  ({ s with obuf := s.obuf.writeSeq ((xorBytes m y).take L), rbuf := s.rbuf.writeSeq (m.drop L) } : State).complete
    (resultWord y true (decide (L < m.length))) L (m.length - L)

theorem exec_frDecode_of_absent {s : State} {m : List Byte} (hm : s.input = some m) (hd : decodeFrame m = none) :
    exec .frDecode s = .next { s with result := 0, olen := 0, rlen := 0 } :=
  (Completes.decodeAbsent hm hd).exec_eq

/-- With and without a remainder: an empty remainder changes nothing of `RBUF`. -/
theorem exec_frDecode_of_decodesUnder {s : State} {m : List Byte} {y : Byte} {L : Nat} (hm : s.input = some m)
    (h : DecodesUnder m y L) : exec .frDecode s = .next (decodedState s m y L) := by
  have hle := le_length_of_validUnder h.validUnder
  have hd := decodeFrame_of_decodesUnder h
  rw [deframed] at hd
  by_cases hlt : L < m.length
  · rw [if_pos hlt] at hd
    rw [(Completes.decodeSplit hm hd).exec_eq, decodedState]
    simp [hlt, hle]
  · rw [if_neg hlt] at hd
    rw [(Completes.decodeFrame hm hd).exec_eq, decodedState, List.drop_eq_nil_of_le (Nat.not_lt.1 hlt), writeSeq_nil]
    simp [hlt, hle, Nat.sub_eq_zero_of_le (Nat.not_lt.1 hlt)]

/-- FR.DECODE that sets `RFLAG` found a frame. -/
theorem exists_decodesUnder_of_rflag {s t : State} {m : List Byte} (hm : s.input = some m)
    (h : exec .frDecode s = .next t) (hflag : t.rflag = true) :
    ∃ y L, DecodesUnder m y L ∧ t = decodedState s m y L := by
  rcases decodeFrame_eq_none_or_decodesUnder m with hd | ⟨y, L, hy⟩
  · obtain rfl := Host.Outcome.next.inj (h.symm.trans (exec_frDecode_of_absent hm hd))
    simp [State.rflag] at hflag
  · exact ⟨y, L, hy, Host.Outcome.next.inj (h.symm.trans (exec_frDecode_of_decodesUnder hm hy))⟩

theorem resultWord_of_frame (y : Byte) (p : Prop) [Decidable p] :
    resultWord y true (decide p) = y.setWidth 32 ||| 0x100 ||| (if p then 0x200 else 0) := by
  by_cases h : p <;> simp [h, resultWord, bitWord, Byte.toWord]

theorem decodedState_obuf_read {m : List Byte} {y : Byte} {L : Nat} (h : DecodesUnder m y L) (s : State) (i : Nat) :
    (decodedState s m y L).obuf.read i = if i < L then m[i]?.map (· ^^^ y) else s.obuf.read i := by
  have hlen : ((xorBytes m y).take L).length = L := by simpa using le_length_of_validUnder h.validUnder
  rw [decodedState, State.complete_obuf, Memory.read_writeSeq, hlen]
  by_cases hi : i < L
  · rw [if_pos hi, if_pos hi, List.getElem?_take_of_lt hi, getElem?_xorBytes]
  · rw [if_neg hi, if_neg hi]

theorem decodedState_rbuf_read (s : State) (m : List Byte) (y : Byte) (L i : Nat) :
    (decodedState s m y L).rbuf.read i = if i < m.length - L then m[L + i]? else s.rbuf.read i := by
  rw [decodedState, State.complete_rbuf, Memory.read_writeSeq, List.length_drop, List.getElem?_drop]

/-- Settles O38: the frame and the raw rest are what is written to the output buffers. -/
theorem decodeReturnsTheFrame : Obligations.DecodeReturnsTheFrame := by
  intro s m x y L hm hlen hx hcand
  have hdec : DecodesUnder m y L := ⟨hlen, x, hx, hcand⟩
  have hle := le_length_of_validUnder hdec.validUnder
  refine ⟨_, exec_frDecode_of_decodesUnder hm hdec, fun i hi => ?_, fun i hi => ?_, fun i hi => ?_, fun i hi => ?_, ?_⟩
  · have hget : m[i]? = some m[i] := List.getElem?_eq_getElem (hi.trans_le hle)
    exact ⟨m[i], hget, by rw [decodedState_obuf_read hdec, if_pos hi, hget, Option.map_some]⟩
  · rw [decodedState_obuf_read hdec, if_neg (Nat.not_lt.2 hi)]
  · rw [decodedState_rbuf_read, if_pos hi]
  · rw [decodedState_rbuf_read, if_neg (Nat.not_lt.2 hi)]
  · rw [← resultWord_of_frame]
    rfl

/-- Settles O39: neither candidate is valid, or there is none. -/
theorem decodeAbsentIsNoFault : Obligations.DecodeAbsentIsNoFault := by
  intro s m hm h
  refine exec_frDecode_of_absent hm ?_
  rcases h with hshort | ⟨x, hx, hfirst, hfallback⟩
  · exact decodeFrame_of_short hshort
  · exact decodeFrame_of_invalid hx hfirst hfallback

theorem decodedState_olen {m : List Byte} {y : Byte} {L : Nat} (h : DecodesUnder m y L) (s : State) :
    (decodedState s m y L).olen.toNat = L := by
  have hbounds := frameLength_bounds (frameLength_of_validUnder h.validUnder)
  rw [decodedState, State.complete_olen, BitVec.toNat_ofNat]
  omega

/-- Settles O40: byte 2 of the frame is that of the input, XORed with itself or with itself but the low bit. -/
theorem decodedByteTwoNamesTheCandidate : Obligations.DecodedByteTwoNamesTheCandidate := by
  intro s t m hm h hflag
  obtain ⟨y, L, hdec, rfl⟩ := exists_decodesUnder_of_rflag hm h hflag
  have hkey : (decodedState s m y L).rbyte = y := resultWord_rbyte y _ _
  have ⟨_, x, hx, hcand⟩ := hdec
  have htwo (hL : 3 ≤ L) : (decodedState s m y L).obuf.read 2 = some (x ^^^ y) := by
    rw [decodedState_obuf_read hdec, if_pos (Nat.lt_of_succ_le hL), hx, Option.map_some]
  rw [decodedState_olen hdec, hkey]
  refine ⟨x, hx, ?_⟩
  rcases hcand with ⟨rfl, -⟩ | ⟨rfl, -⟩
  · exact .inl ⟨rfl, fun hL => by rw [htwo hL, BitVec.xor_self]; rfl⟩
  · exact .inr ⟨rfl, fun hL => by rw [htwo hL, ← BitVec.xor_assoc, BitVec.xor_self, BitVec.zero_xor]⟩

/-- Settles O41: the remainder is what the input holds beyond the frame. -/
theorem decodeLengthsAddUp : Obligations.DecodeLengthsAddUp := by
  intro s t m hm h hflag
  obtain ⟨y, L, hdec, rfl⟩ := exists_decodesUnder_of_rflag hm h hflag
  have hbounds := frameLength_bounds (frameLength_of_validUnder hdec.validUnder)
  have hle := le_length_of_validUnder hdec.validUnder
  have hilen := State.input_length hm
  have hrlen : (decodedState s m y L).rlen.toNat = m.length - L := by
    have hlt := s.ilen.isLt
    rw [decodedState, State.complete_rlen, BitVec.toNat_ofNat]
    omega
  have hremv : (decodedState s m y L).remv = decide (L < m.length) := resultWord_remv y _ _
  rw [decodedState_olen hdec, hrlen, hremv, decide_eq_true_iff]
  omega

end Sys2Proof.Proofs
end

section
/-! SUPPORT. Faults: the fault record of a command that raises one, what a recorded fault drops, how long it stays, and
what does not depend on it (spec/60_exceptions.md R160 to R167). -/

namespace Sys2Proof.Proofs

open Machine

/-! ### Recording a fault -/

/-- Settles O16: a completion leaves the fault record alone, so the command raised the fault, and raising is all it
did. -/
theorem faultingCommandWritesOnlyTheFaultRecord : Obligations.FaultingCommandWritesOnlyTheFaultRecord := by
  intro i s t hs h ht
  rcases raises_or_completes h with ⟨c, hc, rfl⟩ | hcomp
  · rw [State.raise_of_no_fault hs]
    exact ⟨hc.code_ne_none, rfl⟩
  · obtain ⟨hf, -, -⟩ := hcomp.faultRecord
    simp [ht, hs] at hf

/-! ### While a fault is recorded -/

theorem issueCommand_of_fault {s : State} (hf : s.fault = true) (w : Word) : issueCommand s w = .next s :=
  if_pos hf

/-- Settles O7: the block issues no command. -/
theorem commandDroppedWhileFaulted : Obligations.CommandDroppedWhileFaulted :=
  fun s _ rest hp hf => (step_write_of_cmd hp).trans (issueCommand_of_fault (s := { s with pending := rest }) hf _)

/-- `t` has the fault record of `s`. -/
def SameFaultRecord (s t : State) : Prop :=
  t.fault = s.fault ∧ t.errcode = s.errcode ∧ t.finfo = s.finfo

theorem SameFaultRecord.refl (s : State) : SameFaultRecord s s :=
  ⟨rfl, rfl, rfl⟩

/-- A later fault is not recorded (R167). -/
theorem sameFaultRecord_raise {s : State} (hf : s.fault = true) (c : ErrCode) (w : Word) :
    SameFaultRecord s (s.raise c w) := by
  rw [State.raise_of_fault hf]
  exact .refl s

theorem sameFaultRecord_hostRead {s : State} (hf : s.fault = true) (b : Nat) (o : Word) :
    SameFaultRecord s (hostRead s b o) := by
  rcases hostRead_cases s b o with ⟨_, _, -, -, h⟩ | ⟨_, -, -, h⟩ | ⟨-, h⟩ <;> rw [h]
  · exact .refl s
  · exact .refl s
  · exact sameFaultRecord_raise hf _ _

theorem sameFaultRecord_writeIlen {s : State} (hf : s.fault = true) (w : Word) : SameFaultRecord s (writeIlen s w) := by
  rcases writeIlen_cases s w with ⟨-, h⟩ | ⟨-, -, h⟩ <;> rw [h]
  · exact sameFaultRecord_raise hf _ _
  · exact .refl s

/-- The one word whose write to `CTRL` resets (R36). -/
theorem eq_one_of_shiftRight_of_bit {w : Word} (hhigh : w >>> 1 = 0) (hlow : w.getLsbD 0 = true) : w = 1 := by
  have hlow' : w.toNat % 2 = 1 := by simpa [BitVec.getLsbD, Nat.testBit_zero] using hlow
  bv_omega

/-- A write of `CTRL` that does not reset keeps the record. -/
theorem sameFaultRecord_writeCtrl {s : State} (hf : s.fault = true) {w : Word} (hw : w ≠ 1) :
    SameFaultRecord s (writeCtrl s w) := by
  rcases writeCtrl_cases s w with ⟨-, h⟩ | ⟨hhigh, hlow, -⟩ | ⟨-, -, h⟩
  · rw [h]
    exact sameFaultRecord_raise hf _ _
  · exact absurd (eq_one_of_shiftRight_of_bit hhigh hlow) hw
  · rw [h]
    exact .refl s

/-- Every event but a reset keeps a recorded fault. -/
theorem sameFaultRecord_hostEvent {s t : State} {e : HostEvent} (hf : s.fault = true) (he : ¬IsReset e)
    (h : hostEvent s e = .next t) : SameFaultRecord s t := by
  rcases hostEvent_cases h with ⟨rfl, -⟩ | ⟨b, o, -, rfl⟩ | ⟨_, _, _, -, -, hcmd⟩ | ⟨b, o, w, rfl, hl, rfl⟩ |
    ⟨_, _, w, -, -, rfl⟩ | ⟨_, _, _, _, -, -, rfl⟩ | ⟨_, _, _, -, rfl⟩
  · exact absurd (.inl rfl) he
  · exact sameFaultRecord_hostRead hf b o
  · rcases hcmd with ⟨-, rfl⟩ | ⟨hno, -⟩ | ⟨hno, -⟩
    · exact .refl t
    · simp [hf] at hno
    · simp [hf] at hno
  · obtain ⟨rfl, rfl⟩ := locate_eq_ctrl hl
    refine sameFaultRecord_writeCtrl hf fun hw => he (.inr ?_)
    rw [hw]
    rfl
  · exact sameFaultRecord_writeIlen hf w
  · exact .refl s
  · exact sameFaultRecord_raise hf _ _

/-- Settles O13: such an event keeps the record it finds. -/
theorem onlyResetClearsFault : Obligations.OnlyResetClearsFault := by
  intro s t e rest hp hf he h
  obtain ⟨hfault, hcode, hinfo⟩ :=
    sameFaultRecord_hostEvent (s := { s with pending := rest }) hf he ((step_of_pending hp).symm.trans h)
  exact ⟨hfault.trans hf, hcode, hinfo⟩

/-! ### A run with a fault recorded -/

theorem exists_step_of_runSteps_succ {n : Nat} {s t : State} (h : runSteps (n + 1) s = .next t) :
    ∃ u, step s = .next u ∧ runSteps n u = .next t := by
  unfold runSteps at h
  split at h
  · next u hu => exact ⟨u, hu, h⟩
  · cases h
  · cases h

/-- What every step keeps, every run keeps. -/
theorem runSteps_keeps {P : State → Prop} (hstep : ∀ {s t}, P s → step s = .next t → P t) {n : Nat} {s t : State}
    (hs : P s) (h : runSteps n s = .next t) : P t := by
  induction n generalizing s with
  | zero => exact Host.Outcome.next.inj h ▸ hs
  | succ n ih =>
    obtain ⟨u, hu, hrun⟩ := exists_step_of_runSteps_succ h
    exact ih (hstep hs hu) hrun

/-- A fault is recorded and no reset is to come. -/
def FaultedForGood (s : State) : Prop :=
  s.fault = true ∧ ∀ e ∈ s.pending, ¬IsReset e

theorem FaultedForGood.step {s t : State} (hs : FaultedForGood s) (h : step s = .next t) : FaultedForGood t := by
  obtain ⟨hf, hnoreset⟩ := hs
  rcases step_cases h with ⟨-, rfl⟩ | ⟨e, rest, hp, -⟩
  · exact ⟨hf, hnoreset⟩
  · rw [hp, List.forall_mem_cons] at hnoreset
    obtain ⟨he, hrest⟩ := hnoreset
    obtain ⟨hq, -, -⟩ := stepTakesOneEvent s t h
    rw [hp, List.tail_cons] at hq
    exact ⟨(onlyResetClearsFault s t e rest hp hf he h).1, hq ▸ hrest⟩

/-- Settles O15: every step of such a run leaves the fault recorded and a shorter queue without a reset. -/
theorem faultedRunNeverEndsWell : Obligations.FaultedRunNeverEndsWell := by
  rintro s hf hnoreset ⟨t, hrun, ht⟩
  obtain ⟨ht', -⟩ := runSteps_keeps FaultedForGood.step ⟨hf, hnoreset⟩ hrun
  simp [ht] at ht'

/-! ### Accesses that do not depend on the fault record -/

/-- `s` with the fault record of `u`. -/
def withFaultOf (s u : State) : State :=
  { s with fault := u.fault, errcode := u.errcode, finfo := u.finfo }

@[simp] theorem withFaultOf_maxBuf (s u : State) : (withFaultOf s u).maxBuf = s.maxBuf := rfl

theorem raise_withFaultOf (s u : State) (c : ErrCode) (w : Word) :
    ∃ v, (withFaultOf s u).raise c w = withFaultOf (s.raise c w) v := by
  refine ⟨(withFaultOf s u).raise c w, ?_⟩
  unfold State.raise
  split <;> split <;> rfl

/-- Only `STATUS` and `FINFO` show the fault record (R35, R41). -/
theorem held_withFaultOf (s u : State) {loc : Location} (hstatus : loc ≠ .status) (hfinfo : loc ≠ .finfo) :
    (withFaultOf s u).held loc = s.held loc := by
  cases loc with
  | status => exact absurd rfl hstatus
  | finfo => exact absurd rfl hfinfo
  | cmd | ctrl | ilen | olen | rlen | result | kstat | permwin | ibuf | obuf | rbuf => rfl

/-- Only a word access at offset 4 reaches `STATUS`. -/
theorem locate_eq_status {n b : Nat} {o : Word} (h : locate n b o = some .status) : b = 4 ∧ o = 4#32 :=
  ⟨(offset_of_locate h).1, BitVec.eq_of_toNat_eq (offset_of_locate h).2⟩

/-- Only a word access at offset 32 reaches `FINFO`. -/
theorem locate_eq_finfo {n b : Nat} {o : Word} (h : locate n b o = some .finfo) : b = 4 ∧ o = 32#32 :=
  ⟨(offset_of_locate h).1, BitVec.eq_of_toNat_eq (offset_of_locate h).2⟩

/-- A read of another location, or of none, answers the same. -/
theorem hostRead_withFaultOf {s : State} {b : Nat} {o : Word} (hstatus : locate s.maxBuf b o ≠ some .status)
    (hfinfo : locate s.maxBuf b o ≠ some .finfo) (u : State) :
    ∃ v, hostRead (withFaultOf s u) b o = withFaultOf (hostRead s b o) v := by
  simp only [hostRead, withFaultOf_maxBuf]
  cases hloc : locate s.maxBuf b o with
  | none =>
    obtain ⟨v, hv⟩ := raise_withFaultOf s u .illegalAccess o
    exact ⟨v, by simp only [hv]; rfl⟩
  | some loc =>
    have hheld := held_withFaultOf s u (fun h => hstatus (hloc.trans (congrArg some h)))
      (fun h => hfinfo (hloc.trans (congrArg some h)))
    simp only [hheld]
    cases s.held loc <;> exact ⟨u, rfl⟩

theorem writeCtrl_withFaultOf (s u : State) (w : Word) :
    ∃ v, writeCtrl (withFaultOf s u) w = withFaultOf (writeCtrl s w) v := by
  unfold writeCtrl
  split
  · exact raise_withFaultOf s u _ _
  · split
    · exact ⟨s.resetBlock, rfl⟩
    · exact ⟨u, rfl⟩

theorem writeIlen_withFaultOf (s u : State) (w : Word) :
    ∃ v, writeIlen (withFaultOf s u) w = withFaultOf (writeIlen s w) v := by
  rcases writeIlen_cases s w with ⟨hbad, h⟩ | ⟨hlt, hle, h⟩ <;> rw [h]
  · obtain ⟨v, hv⟩ := raise_withFaultOf s u .ilenRange w
    exact ⟨v, (if_pos hbad).trans hv⟩
  · exact ⟨u, if_neg (by rw [withFaultOf_maxBuf]; omega)⟩

/-- A write to any other location than `CMD`, or to none, does the same. -/
theorem hostWrite_withFaultOf {s t : State} {b : Nat} {o w : Word} (hcmd : locate s.maxBuf b o ≠ some .cmd)
    (h : hostWrite s b o w = .next t) (u : State) :
    ∃ v, hostWrite (withFaultOf s u) b o w = .next (withFaultOf t v) := by
  simp only [hostWrite, withFaultOf_maxBuf] at h ⊢
  split at h
  · next hloc => exact absurd hloc hcmd
  all_goals obtain rfl := Host.Outcome.next.inj h
  · obtain ⟨v, hv⟩ := writeCtrl_withFaultOf s u w
    exact ⟨v, congrArg _ hv⟩
  · obtain ⟨v, hv⟩ := writeIlen_withFaultOf s u w
    exact ⟨v, congrArg _ hv⟩
  · exact ⟨u, rfl⟩
  all_goals
    obtain ⟨v, hv⟩ := raise_withFaultOf s u .illegalAccess o
    exact ⟨v, congrArg _ hv⟩

/-- Of the events, only a command and a read of `STATUS` or `FINFO` depend on the fault record (R162). -/
theorem hostEvent_withFaultOf {s t : State} {e : HostEvent} (hcmd : ∀ w, e ≠ .write 4 0x00000 w)
    (hstatus : e ≠ .read 4 0x00004) (hfinfo : e ≠ .read 4 0x00020) (h : hostEvent s e = .next t) (u : State) :
    ∃ v, hostEvent (withFaultOf s u) e = .next (withFaultOf t v) := by
  cases e with
  | resetInput =>
    obtain rfl := Host.Outcome.next.inj h
    exact ⟨s.resetBlock, rfl⟩
  | read b o =>
    obtain rfl := Host.Outcome.next.inj h
    obtain ⟨v, hv⟩ := hostRead_withFaultOf (s := s) (b := b) (o := o)
      (fun hloc => hstatus (by obtain ⟨rfl, rfl⟩ := locate_eq_status hloc; rfl))
      (fun hloc => hfinfo (by obtain ⟨rfl, rfl⟩ := locate_eq_finfo hloc; rfl)) u
    exact ⟨v, congrArg _ hv⟩
  | write b o w =>
    refine hostWrite_withFaultOf (fun hloc => hcmd w ?_) h u
    obtain ⟨rfl, rfl⟩ := locate_eq_cmd hloc
    rfl

/-- Settles O14: in the two runs such an event does the same, to the fault record at most. -/
theorem faultRecordDoesNotAffectOtherAccesses : Obligations.FaultRecordDoesNotAffectOtherAccesses := by
  intro s t e rest f c v hp hcmd hstatus hfinfo h
  obtain ⟨v', hv'⟩ := hostEvent_withFaultOf hcmd hstatus hfinfo ((step_of_pending hp).symm.trans h)
    { s with fault := f, errcode := c, finfo := v }
  exact ⟨v'.fault, v'.errcode, v'.finfo,
    (step_of_pending (s := { s with fault := f, errcode := c, finfo := v }) hp).trans hv'⟩

end Sys2Proof.Proofs
end

section
/-! SUPPORT. Reset and hazards: the block never stops, both resets leave the reset state, and a peek does not spend the
byte it answers (spec/70_reset_and_hazards.md R180 to R182, R187, R190). -/

namespace Sys2Proof.Proofs

open Machine

/-! ### Every step completes (R190) -/

/-- A command completes or raises a fault, and a fault raised is a recorded status (R166). -/
theorem exists_exec_eq_next (i : Instr) (s : State) : ∃ t, exec i s = .next t := by
  rcases exists_raises_or_completes i s with ⟨_, hc⟩ | ⟨_, ht⟩
  · exact ⟨_, hc.exec_eq⟩
  · exact ⟨_, ht.exec_eq⟩

theorem exists_issueCommand_eq_next (s : State) (w : Word) : ∃ t, issueCommand s w = .next t := by
  rcases issueCommand_cases s w with ⟨-, h⟩ | ⟨-, _, -, h⟩ | ⟨-, i, -, h⟩
  · exact ⟨_, h⟩
  · exact ⟨_, h⟩
  · exact h ▸ exists_exec_eq_next i s

theorem exists_hostWrite_eq_next (s : State) (b : Nat) (o w : Word) : ∃ t, hostWrite s b o w = .next t := by
  rcases hostWrite_cases s b o w with ⟨-, h⟩ | ⟨-, h⟩ | ⟨-, h⟩ | ⟨_, -, h⟩ | h
  · exact h ▸ exists_issueCommand_eq_next s w
  all_goals exact ⟨_, h⟩

theorem exists_hostEvent_eq_next (s : State) (e : HostEvent) : ∃ t, hostEvent s e = .next t := by
  cases e with
  | read b o => exact ⟨hostRead s b o, rfl⟩
  | write b o w => exact exists_hostWrite_eq_next s b o w
  | resetInput => exact ⟨s.resetBlock, rfl⟩

/-- Settles O8: with no event pending the block waits, and every event is answered. -/
theorem everyStepCompletes : Obligations.EveryStepCompletes := by
  intro s
  rcases hp : s.pending with _ | ⟨e, rest⟩
  · exact ⟨s, step_of_idle hp⟩
  · exact step_of_pending hp ▸ exists_hostEvent_eq_next { s with pending := rest } e

/-! ### The two resets (R180 to R182) -/

/-- Settles O11: the soft reset is the `CTRL` write of 1, and the reset input resets the block by definition. -/
theorem resetInputAndSoftReset : Obligations.ResetInputAndSoftReset := by
  rintro s e rest hp (rfl | rfl)
  · exact ⟨State.reset.propKey, step_of_pending hp⟩
  · obtain ⟨-, -, hreset, -⟩ := ctrlAccesses s 1 rest
    exact hreset hp

/-! ### A peek, then the advancing command (R187) -/

/-- A peek leaves the index, with a table and without (R105, R107). -/
theorem advanced_false (s : State) (idx : Byte) : s.advanced idx false = idx := by
  simp [State.advanced]

/-- KS.RKEY answers the byte at `RIDX`, whether it advances or not (R105). -/
theorem rbyte_of_rkey {inc : Bool} {s t : State} (h : exec (.ksRkey inc) s = .next t) :
    t.rbyte = s.keyLookup s.ridx := by
  obtain rfl := Host.Outcome.next.inj ((Completes.rkey inc).exec_eq.symm.trans h)
  exact resultWord_rbyte _ _ _

/-- KS.SKEY answers the byte at `SIDX`, whether it advances or not (R107). -/
theorem rbyte_of_skey {inc : Bool} {s t : State} (h : exec (.ksSkey inc) s = .next t) :
    t.rbyte = s.keyLookup s.sidx := by
  obtain rfl := Host.Outcome.next.inj ((Completes.skey inc).exec_eq.symm.trans h)
  exact resultWord_rbyte _ _ _

/-- The next KS.RKEY after a peek finds the byte the peek found. -/
theorem keyLookup_ridx_of_peek {s t : State} (h : exec (.ksRkey false) s = .next t) :
    t.keyLookup t.ridx = s.keyLookup s.ridx := by
  obtain rfl := Host.Outcome.next.inj ((Completes.rkey false).exec_eq.symm.trans h)
  exact congrArg s.keyLookup (advanced_false s s.ridx)

/-- The next KS.SKEY after a peek finds the byte the peek found. -/
theorem keyLookup_sidx_of_peek {s t : State} (h : exec (.ksSkey false) s = .next t) :
    t.keyLookup t.sidx = s.keyLookup s.sidx := by
  obtain rfl := Host.Outcome.next.inj ((Completes.skey false).exec_eq.symm.trans h)
  exact congrArg s.keyLookup (advanced_false s s.sidx)

/-- Settles O28: each command answers the byte at its index before it advances, and the peek leaves that byte. -/
theorem peekThenConsumeAnswersTheSameByte : Obligations.PeekThenConsumeAnswersTheSameByte := by
  refine fun s t => ⟨fun hpeek => ?_, fun hpeek => ?_⟩
  · obtain ⟨u, hu⟩ := exists_exec_eq_next (.ksRkey true) t
    refine ⟨u, hu, ?_⟩
    rw [rbyte_of_rkey hu, keyLookup_ridx_of_peek hpeek, rbyte_of_rkey hpeek]
  · obtain ⟨u, hu⟩ := exists_exec_eq_next (.ksSkey true) t
    refine ⟨u, hu, ?_⟩
    rw [rbyte_of_skey hu, keyLookup_sidx_of_peek hpeek, rbyte_of_skey hpeek]

end Sys2Proof.Proofs
end
